-- ==== Sys2Proof/Word.lean ====
section
/-!
DEFINITION. The widths of the machine: datapath words, memory bytes, register indices
(spec/00_scope.md R5; spec/30_encoding.md R51).
-/

namespace Sys2Proof

/-- A datapath word: XLEN = 32 (R5). Registers, addresses and instruction words are of this width. -/
abbrev Word := BitVec 32

/-- The unit the host's memory dump shows (20_memory.md R36). -/
abbrev Byte := BitVec 8

/-- A register index, 0 to 31: every index is a 5-bit field of the instruction word (R14, R51), so
the register-index error of the source cannot occur (60_exceptions.md R171). -/
abbrev RegIdx := BitVec 5

end Sys2Proof
end

