-- ==== Sys2Proof/Config.lean ====
section
/-!
DEFINITION. What is fixed for one machine and never changes during a run: the parameters of
spec/00_scope.md R6, with their bounds and defaults, and the one word the spec leaves without a value
(spec/40_datapath.md R96).
-/

namespace Sys2Proof

/-- `DMEM_BYTE_ORDER` (00_scope.md R6, 20_memory.md R36). -/
inductive ByteOrder where
  | little
  | big
  deriving DecidableEq, Repr

/-- The parameters of the hardware (00_scope.md R6). -/
structure Config where
  /-- `IMEM`: word i is the instruction at byte address 4*i (10_state.md R18); `IMEM_WORDS` is its length. -/
  imem : List Word
  /-- `DMEM_SIZE`: the extent of the data memory in bytes. -/
  dmemSize : Nat
  /-- `DMEM_INIT`: word w of the data memory after reset; a word index past the list's end has the value 0. -/
  dmemInit : List Word
  /-- `DMEM_BYTE_ORDER`. -/
  byteOrder : ByteOrder
  /-- `STRICT_RV32I` (30_encoding.md R67). -/
  strict : Bool
  deriving DecidableEq, Repr

/-- The defaults of R6: no program, 65536 bytes of data memory, all zero, little-endian dump, not strict. -/
def Config.default : Config where
  imem := []
  dmemSize := 65536
  dmemInit := []
  byteOrder := .little
  strict := false

/-- The bounds of R6: a configuration outside them is not admitted (93_implementation_defined.md U3). -/
abbrev Config.wf (c : Config) : Prop :=
  c.imem.length ≤ 2 ^ 30 ∧ c.dmemSize % 4 = 0 ∧ 4 ≤ c.dmemSize ∧ c.dmemSize ≤ 2 ^ 31 ∧
    c.dmemInit.length ≤ c.dmemSize / 4

/-- FREE VALUE (log entry 6): what the memory's read-data line carries in a step that reads nothing, as a
function of the step's ALU result. "When no read happened in the step `rdata` has no defined value" (40_datapath.md R96); the
write-back multiplexer never selects it. -/
opaque Config.undrivenReadData : Word → Word

end Sys2Proof
end

