-- ==== Sys2Proof/Syntax.lean ====
section
/-!
DEFINITION. The 21 instructions of the opcode table (spec/30_encoding.md R62), one constructor per row, the causes a
step can raise (spec/60_exceptions.md R160 to R167), and the shape of one row of the opcode table.
-/

namespace Sys2Proof

/-- An instruction with every bit of its word that its row does not fix: the registers, the
immediate, and for LW, SW and BEQ the `funct3` field, which the hardware does not consult
(30_encoding.md R66) but which `STRICT_RV32I` looks at (R67). The 12-bit immediate of SLLI and SRLI is
`instr[31:20]` whole (R65); the offset of BEQ is `imm_b[12:1]`, bit 0 being the constant 0 (R56). -/
inductive Instr where
  -- OP class, R format (41_r_type.md)
  | add (rd rs1 rs2 : RegIdx)
  | sub (rd rs1 rs2 : RegIdx)
  | sll (rd rs1 rs2 : RegIdx)
  | slt (rd rs1 rs2 : RegIdx)
  | sltu (rd rs1 rs2 : RegIdx)
  | xor (rd rs1 rs2 : RegIdx)
  | srl (rd rs1 rs2 : RegIdx)
  | sra (rd rs1 rs2 : RegIdx)
  | or (rd rs1 rs2 : RegIdx)
  | and (rd rs1 rs2 : RegIdx)
  -- OP-IMM class, I format (42_i_type_arith.md)
  | addi (rd rs1 : RegIdx) (imm : BitVec 12)
  | slti (rd rs1 : RegIdx) (imm : BitVec 12)
  | sltiu (rd rs1 : RegIdx) (imm : BitVec 12)
  | xori (rd rs1 : RegIdx) (imm : BitVec 12)
  | ori (rd rs1 : RegIdx) (imm : BitVec 12)
  | andi (rd rs1 : RegIdx) (imm : BitVec 12)
  | slli (rd rs1 : RegIdx) (imm : BitVec 12)
  | srli (rd rs1 : RegIdx) (imm : BitVec 12)
  -- LOAD and STORE classes, I and S formats (43_load_store.md)
  | lw (rd rs1 : RegIdx) (funct3 : BitVec 3) (imm : BitVec 12)
  | sw (rs1 rs2 : RegIdx) (funct3 : BitVec 3) (imm : BitVec 12)
  -- BRANCH class, B format (44_branch.md)
  | beq (rs1 rs2 : RegIdx) (funct3 : BitVec 3) (off : BitVec 12)
  deriving DecidableEq, Repr

/-- The causes of an error outcome (60_exceptions.md R167; the latch value NONE is the absence of one). -/
inductive Cause where
  /-- `DecodeError(UNSUPPORTED_OPCODE)`, raised by the Control Unit on any word (R161). -/
  | unsupportedOpcode
  /-- `DecodeError(UNSUPPORTED_FUNCT)`, raised by the ALU control, or under `STRICT_RV32I` (R162). -/
  | unsupportedFunct
  /-- `MemoryError(MEM_MISALIGNED)`, raised by LW and SW (R163). -/
  | memMisaligned
  /-- `MemoryError(MEM_OUT_OF_RANGE)`, raised by LW and SW (R164). -/
  | memOutOfRange
  /-- `BranchTargetError(BRANCH_TARGET_MISALIGNED)`, raised by a taken BEQ (R165). -/
  | branchTargetMisaligned
  deriving DecidableEq, Repr

/-- The error classes a step can report (60_exceptions.md R160, R165). -/
inductive ErrorClass where
  | decodeError
  | memoryError
  | branchTargetError
  deriving DecidableEq, Repr

/-- One row of the opcode table (30_encoding.md R62): a word w is the instruction when
`w AND mask = match`; the strict pair is the canonical RV32I form (R67). -/
structure OpcodeRow where
  mnemonic : String
  mask : Word
  pattern : Word
  strictMask : Word
  strictPattern : Word
  deriving DecidableEq, Repr

end Sys2Proof
end

