-- ==== Sys2Proof/Machine/State.lean ====
section
/-!
DEFINITION. The machine's state as plain data (spec/10_state.md), the reasons a step could stop, and the state right
after reset (spec/70_reset_and_hazards.md R190).
-/

namespace Sys2Proof.Machine

/-- The 31 storage cells x[1] to x[31] (R10); cell i - 1 is x[i]. Index 0 has no cell: it is "a dedicated immutable zero
constant" (R11), supplied by `RegFile.read`. -/
abbrev RegFile := Vector Word 31

/-- The data memory (R20) as bytes: (address, byte) pairs, addresses strictly rising, none equal to what an
unlisted address reads as (`Memory.unlisted`, log entry 3). -/
abbrev Memory := List Host.Cell

/-- The sequencer's two states (R21). -/
inductive RunStatus where
  | running
  | halted
  deriving DecidableEq, Repr

/-- The whole architectural state (head of 10_state.md), with the configuration it runs under. -/
structure State where
  /-- The parameters of 00_scope.md R6, IMEM among them; no step changes them (R19). -/
  cfg : Config
  /-- The general registers x[1] to x[31] (R10). -/
  regs : RegFile
  /-- The program counter (R15). -/
  pc : Word
  /-- RUNNING or HALTED (R21). -/
  status : RunStatus
  /-- The fault latch (R22); `none` is NONE. -/
  fault : Option Cause
  /-- The data memory (R20). -/
  dmem : Memory
  deriving DecidableEq, Repr

/-- The reasons a step could stop with a fault: NONE. Every error of this hardware is a step with an effect the spec
gives (60_exceptions.md R166): status HALTED and the cause in the fault latch, a next state of this model. "No behaviour of this
hardware is left stuck" (93_implementation_defined.md, end of Part 1). Nobody raises a fault, which is safe: no run ends where
the hardware goes on. -/
inductive Fault where
  deriving DecidableEq, Repr

/-- The reasons a step could be refused. -/
inductive Refusal where
  /-- Raised by an arm of `exec` whose instruction has no meaning yet; no arm is left so. Safe: the model stops where the
  hardware goes on. -/
  | notModelled (mnemonic : String)
  deriving DecidableEq, Repr

/-- The machine right after reset (70_reset_and_hazards.md R190), under the default parameters of 00_scope.md R6: pc 0,
RUNNING, no fault, every register 0, data memory all zero, and no program (log entry 1). Reset under any other
configuration is `State.resetWith`. -/
def State.reset : State where
  cfg := Config.default
  regs := Vector.replicate 31 0#32
  pc := 0#32
  status := .running
  fault := none
  dmem := []

end Sys2Proof.Machine
end

