-- ==== Sys2Proof/Machine/Flags.lean ====
section
/-!
DEFINITION. The ALU (spec/40_datapath.md R87 to R92) and its one flag, the zero output (R88). The hardware stores no flag (spec/10_state.md
R24): `zeroFlag` is a wire recomputed in every step.
-/

namespace Sys2Proof.Machine

/-- The ten ALU control codes (R87). -/
inductive AluCode where
  | add
  | sub
  | and
  | or
  | xor
  | sll
  | srl
  | sra
  | slt
  | sltu
  deriving DecidableEq, Repr

/-- The shift amount: the low five bits of operand B (R89). -/
def shiftAmount (b : Word) : Nat := (b.extractLsb' 0 5).toNat

/-- The 32-bit truth value of a comparison (R91). -/
def truthWord (p : Bool) : Word := if p then 1#32 else 0#32

/-- The ALU's result (R87); sums and differences wrap (R90), SLT compares signed and SLTU unsigned values (R91). -/
def aluResult (code : AluCode) (a b : Word) : Word :=
  match code with
  | .add => a + b
  | .sub => a - b
  | .and => a &&& b
  | .or => a ||| b
  | .xor => a ^^^ b
  | .sll => a <<< shiftAmount b
  | .srl => a >>> shiftAmount b
  | .sra => a.sshiftRight (shiftAmount b)
  | .slt => truthWord (a.slt b)
  | .sltu => truthWord (a.ult b)

/-- The zero output (R88): all 32 bits of the result are 0. -/
def zeroFlag (result : Word) : Bool := result == 0#32

/-- The ALU: `execute(a, b, code) -> (result, zero)` (R87, R88). -/
def alu (a b : Word) (code : AluCode) : Word × Bool :=
  (aluResult code a b, zeroFlag (aluResult code a b))

end Sys2Proof.Machine
end

