-- ==== Sys2Proof/WellFormed.lean ====
section
/-!
DEFINITION. Which instructions a decoder may answer (spec/30_encoding.md R62, R67). Operands have the exact width of
their fields, so the only check left is the canonical form that `STRICT_RV32I` asks for.
-/

namespace Sys2Proof

/-- The canonical RV32I form of R62's last column: LW and SW have `funct3` = 010, BEQ has 000, and the
shifts by a constant have `instr[31:25]` = 0000000. The other sixteen rows have one form only. -/
def Instr.canonical : Instr → Bool
  | .add _ _ _ => true
  | .sub _ _ _ => true
  | .sll _ _ _ => true
  | .slt _ _ _ => true
  | .sltu _ _ _ => true
  | .xor _ _ _ => true
  | .srl _ _ _ => true
  | .sra _ _ _ => true
  | .or _ _ _ => true
  | .and _ _ _ => true
  | .addi _ _ _ => true
  | .slti _ _ _ => true
  | .sltiu _ _ _ => true
  | .xori _ _ _ => true
  | .ori _ _ _ => true
  | .andi _ _ _ => true
  | .slli _ _ imm => imm.extractLsb' 5 7 == 0b0000000#7
  | .srli _ _ imm => imm.extractLsb' 5 7 == 0b0000000#7
  | .lw _ _ funct3 _ => funct3 == 0b010#3
  | .sw _ _ funct3 _ => funct3 == 0b010#3
  | .beq _ _ funct3 _ => funct3 == 0b000#3

/-- An instruction the hardware accepts: any, or with `STRICT_RV32I` = true a canonical one (R67). -/
def Instr.wellFormed (strict : Bool) (i : Instr) : Bool :=
  !strict || i.canonical

end Sys2Proof
end

