-- ==== Sys2Proof/Decode.lean ====
section
/-!
DEFINITION. Instruction words: the fields (spec/30_encoding.md R51), the Immediate Generator (R53 to R58), the decoder (R69),
the encoder written from the same formats (R52, R61), and the opcode table (R62).
-/

namespace Sys2Proof

/-! ## Sign extension (00_scope.md section 6) -/

/-- `sext_12`: bit 11 copied into bits 31 to 12. -/
def sext12 (v : BitVec 12) : Word := v.signExtend 32

/-- `sext_13`: bit 12 copied into bits 31 to 13. -/
def sext13 (v : BitVec 13) : Word := v.signExtend 32

/-! ## The fields (R51) -/

def opcode (w : Word) : BitVec 7 := w.extractLsb' 0 7
def rdField (w : Word) : RegIdx := w.extractLsb' 7 5
def funct3 (w : Word) : BitVec 3 := w.extractLsb' 12 3
def rs1Field (w : Word) : RegIdx := w.extractLsb' 15 5
def rs2Field (w : Word) : RegIdx := w.extractLsb' 20 5
def funct7 (w : Word) : BitVec 7 := w.extractLsb' 25 7

/-! ## The immediate bit groups (R54, R55, R56) -/

/-- `instr[31:20]`. -/
def iGroup (w : Word) : BitVec 12 := w.extractLsb' 20 12

/-- `instr[31:25] ∥ instr[11:7]`. -/
def sGroup (w : Word) : BitVec 12 := w.extractLsb' 25 7 ++ w.extractLsb' 7 5

/-- `instr[31] ∥ instr[7] ∥ instr[30:25] ∥ instr[11:8]`: bits 12 to 1 of the branch offset. -/
def bGroup (w : Word) : BitVec 12 :=
  w.extractLsb' 31 1 ++ w.extractLsb' 7 1 ++ w.extractLsb' 25 6 ++ w.extractLsb' 8 4

/-- The 32-bit branch offset of an offset group: bit 0 is the constant 0 (R56). -/
def branchOffset (off : BitVec 12) : Word := sext13 (off ++ 0b0#1)

/-- The Immediate Generator (R58): a function of the word alone, its type tag chosen by the opcode. The
output for an R-format word is 0 (R57); other opcodes do not reach it and read as 0 too. -/
def immGen (w : Word) : Word :=
  match opcode w with
  | 0b0010011#7 => sext12 (iGroup w)
  | 0b0000011#7 => sext12 (iGroup w)
  | 0b0100011#7 => sext12 (sGroup w)
  | 0b1100011#7 => branchOffset (bGroup w)
  | _ => 0#32

/-! ## The decoder (R69) -/

/-- The OP class: ten (funct3, funct7) pairs, all seven bits of `funct7` compared (R61, R64, R85). -/
def decodeOp (w : Word) : Except Cause Instr :=
  match funct3 w, funct7 w with
  | 0b000#3, 0b0000000#7 => .ok (.add (rdField w) (rs1Field w) (rs2Field w))
  | 0b000#3, 0b0100000#7 => .ok (.sub (rdField w) (rs1Field w) (rs2Field w))
  | 0b001#3, 0b0000000#7 => .ok (.sll (rdField w) (rs1Field w) (rs2Field w))
  | 0b010#3, 0b0000000#7 => .ok (.slt (rdField w) (rs1Field w) (rs2Field w))
  | 0b011#3, 0b0000000#7 => .ok (.sltu (rdField w) (rs1Field w) (rs2Field w))
  | 0b100#3, 0b0000000#7 => .ok (.xor (rdField w) (rs1Field w) (rs2Field w))
  | 0b101#3, 0b0000000#7 => .ok (.srl (rdField w) (rs1Field w) (rs2Field w))
  | 0b101#3, 0b0100000#7 => .ok (.sra (rdField w) (rs1Field w) (rs2Field w))
  | 0b110#3, 0b0000000#7 => .ok (.or (rdField w) (rs1Field w) (rs2Field w))
  | 0b111#3, 0b0000000#7 => .ok (.and (rdField w) (rs1Field w) (rs2Field w))
  | _, _ => .error .unsupportedFunct

/-- The OP-IMM class: `funct3` alone selects, every value of it (R61, R65). -/
def decodeOpImm (w : Word) : Instr :=
  match funct3 w with
  | 0b000#3 => .addi (rdField w) (rs1Field w) (iGroup w)
  | 0b001#3 => .slli (rdField w) (rs1Field w) (iGroup w)
  | 0b010#3 => .slti (rdField w) (rs1Field w) (iGroup w)
  | 0b011#3 => .sltiu (rdField w) (rs1Field w) (iGroup w)
  | 0b100#3 => .xori (rdField w) (rs1Field w) (iGroup w)
  | 0b101#3 => .srli (rdField w) (rs1Field w) (iGroup w)
  | 0b110#3 => .ori (rdField w) (rs1Field w) (iGroup w)
  | _ => .andi (rdField w) (rs1Field w) (iGroup w)

/-- Decoding by class, before `STRICT_RV32I` is looked at (R60, R63, R65, R66). -/
def decodeLoose (w : Word) : Except Cause Instr :=
  match opcode w with
  | 0b0110011#7 => decodeOp w
  | 0b0010011#7 => .ok (decodeOpImm w)
  | 0b0000011#7 => .ok (.lw (rdField w) (rs1Field w) (funct3 w) (iGroup w))
  | 0b0100011#7 => .ok (.sw (rs1Field w) (rs2Field w) (funct3 w) (sGroup w))
  | 0b1100011#7 => .ok (.beq (rs1Field w) (rs2Field w) (funct3 w) (bGroup w))
  | _ => .error .unsupportedOpcode

/-- The decoder in full (R69): total on every word. With `strict` (`STRICT_RV32I` = true) a word that decodes
but is not canonical raises `UNSUPPORTED_FUNCT` (R67). -/
def decode (strict : Bool) (w : Word) : Except Cause Instr :=
  match decodeLoose w with
  | .error c => .error c
  | .ok i => if i.wellFormed strict then .ok i else .error .unsupportedFunct

/-! ## The encoder (R52, R61) -/

/-- The R layout of R52; the other three put their immediate bits where it has `funct7`, `rs2` or `rd`. -/
def formatR (f7 : BitVec 7) (rs2 rs1 : RegIdx) (f3 : BitVec 3) (rd : RegIdx) (op : BitVec 7) : Word :=
  f7 ++ rs2 ++ rs1 ++ f3 ++ rd ++ op

/-- The I layout: imm[11:0] stands in [31:20]. -/
def formatI (imm : BitVec 12) (rs1 : RegIdx) (f3 : BitVec 3) (rd : RegIdx) (op : BitVec 7) : Word :=
  formatR (imm.extractLsb' 5 7) (imm.extractLsb' 0 5) rs1 f3 rd op

/-- The S layout: imm[11:5] in [31:25], imm[4:0] in [11:7]. -/
def formatS (imm : BitVec 12) (rs2 rs1 : RegIdx) (f3 : BitVec 3) (op : BitVec 7) : Word :=
  formatR (imm.extractLsb' 5 7) rs2 rs1 f3 (imm.extractLsb' 0 5) op

/-- The B layout: imm[12], imm[10:5] in [31:25] and imm[4:1], imm[11] in [11:7], where `off` is imm[12:1]. -/
def formatB (off : BitVec 12) (rs2 rs1 : RegIdx) (f3 : BitVec 3) (op : BitVec 7) : Word :=
  formatR (off.extractLsb' 11 1 ++ off.extractLsb' 4 6) rs2 rs1 f3
    (off.extractLsb' 0 4 ++ off.extractLsb' 10 1) op

/-- The word of an instruction, every operand bit in its place. -/
def encode : Instr → Word
  | .add rd rs1 rs2 => formatR 0b0000000#7 rs2 rs1 0b000#3 rd 0b0110011#7
  | .sub rd rs1 rs2 => formatR 0b0100000#7 rs2 rs1 0b000#3 rd 0b0110011#7
  | .sll rd rs1 rs2 => formatR 0b0000000#7 rs2 rs1 0b001#3 rd 0b0110011#7
  | .slt rd rs1 rs2 => formatR 0b0000000#7 rs2 rs1 0b010#3 rd 0b0110011#7
  | .sltu rd rs1 rs2 => formatR 0b0000000#7 rs2 rs1 0b011#3 rd 0b0110011#7
  | .xor rd rs1 rs2 => formatR 0b0000000#7 rs2 rs1 0b100#3 rd 0b0110011#7
  | .srl rd rs1 rs2 => formatR 0b0000000#7 rs2 rs1 0b101#3 rd 0b0110011#7
  | .sra rd rs1 rs2 => formatR 0b0100000#7 rs2 rs1 0b101#3 rd 0b0110011#7
  | .or rd rs1 rs2 => formatR 0b0000000#7 rs2 rs1 0b110#3 rd 0b0110011#7
  | .and rd rs1 rs2 => formatR 0b0000000#7 rs2 rs1 0b111#3 rd 0b0110011#7
  | .addi rd rs1 imm => formatI imm rs1 0b000#3 rd 0b0010011#7
  | .slti rd rs1 imm => formatI imm rs1 0b010#3 rd 0b0010011#7
  | .sltiu rd rs1 imm => formatI imm rs1 0b011#3 rd 0b0010011#7
  | .xori rd rs1 imm => formatI imm rs1 0b100#3 rd 0b0010011#7
  | .ori rd rs1 imm => formatI imm rs1 0b110#3 rd 0b0010011#7
  | .andi rd rs1 imm => formatI imm rs1 0b111#3 rd 0b0010011#7
  | .slli rd rs1 imm => formatI imm rs1 0b001#3 rd 0b0010011#7
  | .srli rd rs1 imm => formatI imm rs1 0b101#3 rd 0b0010011#7
  | .lw rd rs1 f3 imm => formatI imm rs1 f3 rd 0b0000011#7
  | .sw rs1 rs2 f3 imm => formatS imm rs2 rs1 f3 0b0100011#7
  | .beq rs1 rs2 f3 off => formatB off rs2 rs1 f3 0b1100011#7

/-! ## The opcode table (R62) -/

/-- The row of an instruction: its mnemonic, mask and match, and the canonical pair. -/
def Instr.row : Instr → OpcodeRow
  | .add _ _ _ => ⟨"ADD", 0xFE00707F, 0x00000033, 0xFE00707F, 0x00000033⟩
  | .sub _ _ _ => ⟨"SUB", 0xFE00707F, 0x40000033, 0xFE00707F, 0x40000033⟩
  | .sll _ _ _ => ⟨"SLL", 0xFE00707F, 0x00001033, 0xFE00707F, 0x00001033⟩
  | .slt _ _ _ => ⟨"SLT", 0xFE00707F, 0x00002033, 0xFE00707F, 0x00002033⟩
  | .sltu _ _ _ => ⟨"SLTU", 0xFE00707F, 0x00003033, 0xFE00707F, 0x00003033⟩
  | .xor _ _ _ => ⟨"XOR", 0xFE00707F, 0x00004033, 0xFE00707F, 0x00004033⟩
  | .srl _ _ _ => ⟨"SRL", 0xFE00707F, 0x00005033, 0xFE00707F, 0x00005033⟩
  | .sra _ _ _ => ⟨"SRA", 0xFE00707F, 0x40005033, 0xFE00707F, 0x40005033⟩
  | .or _ _ _ => ⟨"OR", 0xFE00707F, 0x00006033, 0xFE00707F, 0x00006033⟩
  | .and _ _ _ => ⟨"AND", 0xFE00707F, 0x00007033, 0xFE00707F, 0x00007033⟩
  | .addi _ _ _ => ⟨"ADDI", 0x0000707F, 0x00000013, 0x0000707F, 0x00000013⟩
  | .slti _ _ _ => ⟨"SLTI", 0x0000707F, 0x00002013, 0x0000707F, 0x00002013⟩
  | .sltiu _ _ _ => ⟨"SLTIU", 0x0000707F, 0x00003013, 0x0000707F, 0x00003013⟩
  | .xori _ _ _ => ⟨"XORI", 0x0000707F, 0x00004013, 0x0000707F, 0x00004013⟩
  | .ori _ _ _ => ⟨"ORI", 0x0000707F, 0x00006013, 0x0000707F, 0x00006013⟩
  | .andi _ _ _ => ⟨"ANDI", 0x0000707F, 0x00007013, 0x0000707F, 0x00007013⟩
  | .slli _ _ _ => ⟨"SLLI", 0x0000707F, 0x00001013, 0xFE00707F, 0x00001013⟩
  | .srli _ _ _ => ⟨"SRLI", 0x0000707F, 0x00005013, 0xFE00707F, 0x00005013⟩
  | .lw _ _ _ _ => ⟨"LW", 0x0000007F, 0x00000003, 0x0000707F, 0x00002003⟩
  | .sw _ _ _ _ => ⟨"SW", 0x0000007F, 0x00000023, 0x0000707F, 0x00002023⟩
  | .beq _ _ _ _ => ⟨"BEQ", 0x0000007F, 0x00000063, 0x0000707F, 0x00000063⟩

/-- The table of R62, in its order. -/
def opcodeTable : List OpcodeRow :=
  [(Instr.add 0 0 0).row, (Instr.sub 0 0 0).row, (Instr.sll 0 0 0).row, (Instr.slt 0 0 0).row,
    (Instr.sltu 0 0 0).row, (Instr.xor 0 0 0).row, (Instr.srl 0 0 0).row, (Instr.sra 0 0 0).row,
    (Instr.or 0 0 0).row, (Instr.and 0 0 0).row] ++
  [(Instr.addi 0 0 0).row, (Instr.slti 0 0 0).row, (Instr.sltiu 0 0 0).row, (Instr.xori 0 0 0).row,
    (Instr.ori 0 0 0).row, (Instr.andi 0 0 0).row, (Instr.slli 0 0 0).row, (Instr.srli 0 0 0).row] ++
  [(Instr.lw 0 0 0 0).row, (Instr.sw 0 0 0 0).row, (Instr.beq 0 0 0 0).row]

/-- A word is of a row when the masked bits are the row's (R62). -/
def OpcodeRow.covers (r : OpcodeRow) (w : Word) : Prop := w &&& r.mask = r.pattern

/-- A word is of a row's canonical RV32I form (R62, R67). -/
def OpcodeRow.coversStrict (r : OpcodeRow) (w : Word) : Prop := w &&& r.strictMask = r.strictPattern

/-- The instruction the decoder reads from an instruction whose bits are `w`, with the default
`STRICT_RV32I` = false. Every instruction is one 32-bit word, so bit 0 of `w` is bit 0 of the word. -/
def decodeTableWord (nbits w : Nat) : Option Instr :=
  match decode false (BitVec.ofNat 32 (w % 2 ^ nbits)) with
  | .ok i => some i
  | .error _ => none

end Sys2Proof
end

