-- ==== Sys2Proof/Machine/Ops.lean ====
section
/-!
DEFINITION. The named operations over the state: register file, data memory, fetch, error entry, clean halt, pc advance, reset.
-/

namespace Sys2Proof.Machine

/-! ## Register file (10_state.md R10 to R14) -/

/-- A register index other than 0 names a cell. -/
theorem cell_lt {i : RegIdx} (h : i ≠ 0#5) : i.toNat - 1 < 31 := by
  have := i.isLt
  have : i.toNat ≠ 0 := fun e => h (BitVec.eq_of_toNat_eq e)
  omega

/-- A read port: index 0 reads as the constant zero (R11), any other its cell (R13). -/
def RegFile.read (rf : RegFile) (i : RegIdx) : Word :=
  if h : i = 0#5 then 0#32 else rf[i.toNat - 1]'(cell_lt h)

/-- The write port, gated by `reg_write`; a write to index 0 is silently discarded (R12). -/
def RegFile.write (rf : RegFile) (regWrite : Bool) (i : RegIdx) (v : Word) : RegFile :=
  if regWrite ∧ i ≠ 0#5 then rf.setIfInBounds (i.toNat - 1) v else rf

/-- `x[i]`. -/
def State.readReg (s : State) (i : RegIdx) : Word := s.regs.read i

/-- `x[i] <- v`. -/
def State.writeReg (s : State) (i : RegIdx) (v : Word) : State :=
  { s with regs := s.regs.write true i v }

/-! ## Data memory: bytes (20_memory.md R36) -/

/-- What an address not listed reads as: the default DMEM_INIT (00_scope.md R6, 20_memory.md R32; log entry 3). -/
def Memory.unlisted : Byte := 0#8

/-- The canonical form: addresses strictly rising, no entry equal to what an unlisted address reads as. -/
abbrev Memory.wf (m : Memory) : Prop :=
  m.Pairwise (fun a b => a.1 < b.1) ∧ ∀ c ∈ m, c.2 ≠ Memory.unlisted

/-- Every listed address is inside the data space 0 to `size` - 1 (R30). -/
abbrev Memory.within (m : Memory) (size : Nat) : Prop := ∀ c ∈ m, c.1 < size

/-- Read one byte. -/
def Memory.readByte : Memory → Nat → Byte
  | [], _ => Memory.unlisted
  | (k, x) :: m, a => if a = k then x else if a < k then Memory.unlisted else Memory.readByte m a

/-- Write one byte, keeping the canonical form. -/
def Memory.writeByte : Memory → Nat → Byte → Memory
  | [], a, v => if v = Memory.unlisted then [] else [(a, v)]
  | (k, x) :: m, a, v =>
    if a < k then
      if v = Memory.unlisted then (k, x) :: m else (a, v) :: (k, x) :: m
    else if a = k then
      if v = Memory.unlisted then m else (a, v) :: m
    else (k, x) :: Memory.writeByte m a v

/-- The byte of word `v` that stands at offset k (0 to 3) from the word's address (R36). -/
def byteAt (order : ByteOrder) (v : Word) (k : Nat) : Byte :=
  match order with
  | .little => v.extractLsb' (8 * k) 8
  | .big => v.extractLsb' (24 - 8 * k) 8

/-- The word whose byte at offset k is `b k`, in the given order (R36). -/
def wordOf (order : ByteOrder) (b0 b1 b2 b3 : Byte) : Word :=
  match order with
  | .little => b3 ++ b2 ++ b1 ++ b0
  | .big => b0 ++ b1 ++ b2 ++ b3

/-- The word at byte address `a`: four bytes, in the configured order. -/
def Memory.readWord (order : ByteOrder) (m : Memory) (a : Nat) : Word :=
  wordOf order (m.readByte a) (m.readByte (a + 1)) (m.readByte (a + 2)) (m.readByte (a + 3))

/-- Store all 32 bits of `v` at byte address `a` (R33, R37). -/
def Memory.writeWord (order : ByteOrder) (m : Memory) (a : Nat) (v : Word) : Memory :=
  (((m.writeByte a (byteAt order v 0)).writeByte (a + 1) (byteAt order v 1)).writeByte
    (a + 2) (byteAt order v 2)).writeByte (a + 3) (byteAt order v 3)

/-- Store the words of a list one after another, the first at byte address `a`. -/
def Memory.writeWords (order : ByteOrder) (m : Memory) (a : Nat) : List Word → Memory
  | [] => m
  | v :: vs => Memory.writeWords order (m.writeWord order a v) (a + 4) vs

/-! ## Data memory: the access primitives (20_memory.md R32 to R35) -/

/-- `a mod 4 != 0` (R34, R152). -/
def misaligned (a : Word) : Bool := a.toNat % 4 != 0

/-- Why an access at `addr` is refused, misaligned before out of range (60_exceptions.md R168). -/
def State.accessError (s : State) (addr : Word) : Option Cause :=
  if misaligned addr then some .memMisaligned
  else if s.cfg.dmemSize ≤ addr.toNat then some .memOutOfRange
  else none

/-- `dmem[addr / 4]`, the word at an address (R32). -/
def State.loadWord (s : State) (addr : Word) : Word := s.dmem.readWord s.cfg.byteOrder addr.toNat

/-- `dmem[addr / 4] <- v` (R33). -/
def State.storeWord (s : State) (addr v : Word) : State :=
  { s with dmem := s.dmem.writeWord s.cfg.byteOrder addr.toNat v }

/-- `MemRead(addr, 4)` (R32). -/
def State.memRead (s : State) (addr : Word) : Except Cause Word :=
  match s.accessError addr with
  | some c => .error c
  | none => .ok (s.loadWord addr)

/-- `MemWrite(addr, 4, v)` (R33): the checks come before the write. -/
def State.memWrite (s : State) (addr v : Word) : Except Cause State :=
  match s.accessError addr with
  | some c => .error c
  | none => .ok (s.storeWord addr v)

/-! ## Instruction memory (10_state.md R18, 20_memory.md R38, R39) -/

/-- `IMEM[a]`: defined when `a` is a multiple of 4 and `a / 4 < IMEM_WORDS`. -/
def imemAt (c : Config) (a : Word) : Option Word :=
  if misaligned a then none else c.imem[a.toNat / 4]?

/-- Fetch reads `IMEM[pc]`; `none` is a lookup miss (R38). -/
def State.fetch (s : State) : Option Word := imemAt s.cfg s.pc

/-- The program image with word `w` as word number k, lengthened with all-zero words where it was shorter. -/
def imageWith (imem : List Word) (k : Nat) (w : Word) : List Word :=
  (imem ++ List.replicate (k + 1 - imem.length) 0#32).set k w

/-- The state in which the very next step runs the word `w` (log entry 11): the loader's work (70_reset_and_hazards.md R203) done at
the pc, which is first made a multiple of 4 if it is none, in a machine made RUNNING if it was HALTED. -/
def State.placeWord (s : State) (w : Word) : State :=
  { s with
    cfg := { s.cfg with imem := imageWith s.cfg.imem (s.pc.toNat / 4) w }
    pc := BitVec.ofNat 32 (s.pc.toNat / 4 * 4)
    status := .running
    fault := match s.status with
      | .running => s.fault
      | .halted => none }

/-! ## The ends of a step -/

/-- `pc <- pc + 4`, modulo 2^32 (10_state.md R17). -/
def State.advancePc (s : State) : State := { s with pc := s.pc + 4#32 }

/-- `pc <- target`. -/
def State.jump (s : State) (target : Word) : State := { s with pc := target }

/-- TAKING AN ERROR (60_exceptions.md R166), the one operation every error goes through: status HALTED, the cause in
the fault latch, nothing else changed, so `pc` still holds the address of the instruction that raised. Nothing is saved and control
goes nowhere. There is no return from an error (R174): only reset leaves HALTED. -/
def State.raise (s : State) (c : Cause) : State := { s with status := .halted, fault := some c }

/-- The clean halt (40_datapath.md R101, 60_exceptions.md R169): a fetch found no instruction; `fault` stays as it is. -/
def State.haltClean (s : State) : State := { s with status := .halted }

/-- An operation that ends in an error ends the step by taking it. -/
def State.orRaise (s : State) (r : Except Cause State) : Host.Outcome State Fault Refusal :=
  match r with
  | .ok t => .next t
  | .error c => .next (s.raise c)

/-! ## Reset (70_reset_and_hazards.md R190, R191) -/

/-- The data memory after reset: `DMEM_INIT`. -/
def initialMemory (c : Config) : Memory := Memory.writeWords c.byteOrder [] 0 c.dmemInit

/-- The state after reset under configuration `c` (R190). -/
def State.resetWith (c : Config) : State where
  cfg := c
  regs := Vector.replicate 31 0#32
  pc := 0#32
  status := .running
  fault := none
  dmem := initialMemory c

/-- A machine comes to exist only under a configuration inside the bounds of 00_scope.md R6; one outside them is not
admitted (93_implementation_defined.md U3), and there is then no state at all (60_exceptions.md R170). -/
def State.boot (c : Config) : Option State := if c.wf then some (State.resetWith c) else none

end Sys2Proof.Machine
end

