-- ==== Sys2Proof/Machine/Operands.lean ====
section
/-!
DEFINITION. The operand forms: the two-input multiplexer (spec/40_datapath.md R94), the data address (spec/43_load_store.md R140) and the
branch target (spec/44_branch.md R151). Register operands are `State.readReg`; immediates are `sext12` and `branchOffset`.
-/

namespace Sys2Proof.Machine

/-- `select(input0, input1, control)`: input 0 when control is 0, input 1 when it is 1 (R94). -/
def mux {α : Type} (input0 input1 : α) (control : Bool) : α := if control then input1 else input0

/-- Base register plus displacement, formed by the ALU whose code is forced to ADD (R31, R140). -/
def State.dataAddress (s : State) (base : RegIdx) (imm : BitVec 12) : Word :=
  aluResult .add (s.readReg base) (sext12 imm)

/-- The branch target: the address of the branch plus the offset, modulo 2^32, by an adder of its own (R103, R151). -/
def State.branchTarget (s : State) (off : BitVec 12) : Word := s.pc + branchOffset off

/-- What the three write-back classes share: the result goes to `rd` and the pc moves on (R105, R106). -/
def State.writeBack (s : State) (rd : RegIdx) (v : Word) : State := (s.writeReg rd v).advancePc

end Sys2Proof.Machine
end

