-- ==== Sys2Proof/Machine/Branch.lean ====
section
/-!
DEFINITION. Control transfer, BRANCH class (spec/44_branch.md R150 to R154). `funct3` is not consulted (R153).
-/

namespace Sys2Proof.Machine

/-- BEQ (R150): taken when the ALU's SUB gives the zero flag; a taken branch to a target that is not a multiple of 4
raises (R152); the offset of a branch not taken is not looked at. -/
def execBeq (rs1 rs2 : RegIdx) (_funct3 : BitVec 3) (off : BitVec 12) (s : State) : Host.Outcome State Fault Refusal :=
  if (alu (s.readReg rs1) (s.readReg rs2) .sub).2 then
    if misaligned (s.branchTarget off) then .next (s.raise .branchTargetMisaligned)
    else .next (s.jump (s.branchTarget off))
  else .next s.advancePc

end Sys2Proof.Machine
end

