-- ==== Sys2Proof/Machine/IType.lean ====
section
/-!
DEFINITION. Register-immediate arithmetic, OP-IMM class (spec/42_i_type_arith.md R125 to R134).
-/

namespace Sys2Proof.Machine

/-- What the eight have in common (R125): operand B is the sign-extended immediate, for the logical operations and
SLTIU too. No operand value makes any of them raise (R134). -/
def execRegImm (code : AluCode) (rd rs1 : RegIdx) (imm : BitVec 12) (s : State) : Host.Outcome State Fault Refusal :=
  .next (s.writeBack rd (aluResult code (s.readReg rs1) (sext12 imm)))

/-- ADDI (R126). -/
def execAddi (rd rs1 : RegIdx) (imm : BitVec 12) (s : State) : Host.Outcome State Fault Refusal :=
  execRegImm .add rd rs1 imm s

/-- SLTI (R127). -/
def execSlti (rd rs1 : RegIdx) (imm : BitVec 12) (s : State) : Host.Outcome State Fault Refusal :=
  execRegImm .slt rd rs1 imm s

/-- SLTIU (R128): the immediate is sign-extended, then compared unsigned. -/
def execSltiu (rd rs1 : RegIdx) (imm : BitVec 12) (s : State) : Host.Outcome State Fault Refusal :=
  execRegImm .sltu rd rs1 imm s

/-- XORI (R129). -/
def execXori (rd rs1 : RegIdx) (imm : BitVec 12) (s : State) : Host.Outcome State Fault Refusal :=
  execRegImm .xor rd rs1 imm s

/-- ORI (R130). -/
def execOri (rd rs1 : RegIdx) (imm : BitVec 12) (s : State) : Host.Outcome State Fault Refusal :=
  execRegImm .or rd rs1 imm s

/-- ANDI (R131). -/
def execAndi (rd rs1 : RegIdx) (imm : BitVec 12) (s : State) : Host.Outcome State Fault Refusal :=
  execRegImm .and rd rs1 imm s

/-- SLLI (R132): operand B is the whole immediate, of which the ALU uses the low five bits. -/
def execSlli (rd rs1 : RegIdx) (imm : BitVec 12) (s : State) : Host.Outcome State Fault Refusal :=
  execRegImm .sll rd rs1 imm s

/-- SRLI (R133): a logical shift whatever `instr[30]` is; there is no SRAI. -/
def execSrli (rd rs1 : RegIdx) (imm : BitVec 12) (s : State) : Host.Outcome State Fault Refusal :=
  execRegImm .srl rd rs1 imm s

end Sys2Proof.Machine
end

