-- ==== Sys2Proof/Machine/LoadStore.lean ====
section
/-!
DEFINITION. Load and store, LOAD and STORE classes (spec/43_load_store.md R140 to R143). `funct3` is not consulted (spec/30_encoding.md R66).
-/

namespace Sys2Proof.Machine

/-- LW (R141): the read is made, and can raise, even when `rd` is 0. -/
def execLw (rd rs1 : RegIdx) (_funct3 : BitVec 3) (imm : BitVec 12) (s : State) : Host.Outcome State Fault Refusal :=
  s.orRaise ((s.memRead (s.dataAddress rs1 imm)).map fun v => s.writeBack rd v)

/-- SW (R142): the value stored is register B, all 32 bits. -/
def execSw (rs1 rs2 : RegIdx) (_funct3 : BitVec 3) (imm : BitVec 12) (s : State) : Host.Outcome State Fault Refusal :=
  s.orRaise ((s.memWrite (s.dataAddress rs1 imm) (s.readReg rs2)).map State.advancePc)

end Sys2Proof.Machine
end

