-- ==== Sys2Proof/Machine/RType.lean ====
section
/-!
DEFINITION. Register-register arithmetic, OP class (spec/41_r_type.md R110 to R121).
-/

namespace Sys2Proof.Machine

/-- What the ten have in common (R110): both registers read before the write, the ALU, the write-back, pc + 4. No
operand value makes any of them raise (R121). -/
def execRegReg (code : AluCode) (rd rs1 rs2 : RegIdx) (s : State) : Host.Outcome State Fault Refusal :=
  .next (s.writeBack rd (aluResult code (s.readReg rs1) (s.readReg rs2)))

/-- ADD (R111). -/
def execAdd (rd rs1 rs2 : RegIdx) (s : State) : Host.Outcome State Fault Refusal :=
  execRegReg .add rd rs1 rs2 s

/-- SUB (R112). -/
def execSub (rd rs1 rs2 : RegIdx) (s : State) : Host.Outcome State Fault Refusal :=
  execRegReg .sub rd rs1 rs2 s

/-- SLL (R113). -/
def execSll (rd rs1 rs2 : RegIdx) (s : State) : Host.Outcome State Fault Refusal :=
  execRegReg .sll rd rs1 rs2 s

/-- SLT (R114). -/
def execSlt (rd rs1 rs2 : RegIdx) (s : State) : Host.Outcome State Fault Refusal :=
  execRegReg .slt rd rs1 rs2 s

/-- SLTU (R115). -/
def execSltu (rd rs1 rs2 : RegIdx) (s : State) : Host.Outcome State Fault Refusal :=
  execRegReg .sltu rd rs1 rs2 s

/-- XOR (R116). -/
def execXor (rd rs1 rs2 : RegIdx) (s : State) : Host.Outcome State Fault Refusal :=
  execRegReg .xor rd rs1 rs2 s

/-- SRL (R117). -/
def execSrl (rd rs1 rs2 : RegIdx) (s : State) : Host.Outcome State Fault Refusal :=
  execRegReg .srl rd rs1 rs2 s

/-- SRA (R118). -/
def execSra (rd rs1 rs2 : RegIdx) (s : State) : Host.Outcome State Fault Refusal :=
  execRegReg .sra rd rs1 rs2 s

/-- OR (R119). -/
def execOr (rd rs1 rs2 : RegIdx) (s : State) : Host.Outcome State Fault Refusal :=
  execRegReg .or rd rs1 rs2 s

/-- AND (R120). -/
def execAnd (rd rs1 rs2 : RegIdx) (s : State) : Host.Outcome State Fault Refusal :=
  execRegReg .and rd rs1 rs2 s

end Sys2Proof.Machine
end

