-- ==== Sys2Proof/Machine/Step.lean ====
section
/-!
DEFINITION. One step of the sequencer (spec/40_datapath.md R98 to R101, R107): a HALTED machine stays as it is (R99), a lookup miss is the
clean halt (R101), a word that does not decode takes its decode error (spec/60_exceptions.md R161, R162), any other word runs.
-/

namespace Sys2Proof.Machine

/-- One step. -/
def step (s : State) : Host.Outcome State Fault Refusal :=
  match s.status with
  | .halted => .next s
  | .running =>
    match s.fetch with
    | none => .next s.haltClean
    | some w =>
      match decode s.cfg.strict w with
      | .error c => .next (s.raise c)
      | .ok i => exec i s

/-- The state in which `step` fetches and runs the instruction whose bits are `w`: see `State.placeWord`. -/
def State.withFetchWord (s : State) (nbits w : Nat) : State :=
  s.placeWord (BitVec.ofNat 32 (w % 2 ^ nbits))

end Sys2Proof.Machine
end

