-- ==== Sys2Proof/Machine/Datapath.lean ====
section
/-!
DEFINITION. The datapath as the spec composes it from its components (spec/40_datapath.md): the Control Unit (R80 to R83), the ALU control
(R84 to R86), and the step of R100 as one function of the fetched word, written independently of the decoder and of the meanings of
the instructions. The machine's own step is `Sys2Proof.Machine.step`; that the two agree is a statement about the model.
-/

namespace Sys2Proof.Machine

/-- The ALU operation class (R82). -/
inductive AluOp where
  | mem
  | branch
  | rtype
  | itype
  deriving DecidableEq, Repr

/-- The Control Signal Set: seven named fields, a closed record (R80). -/
structure ControlSignals where
  aluSrc : Bool
  memToReg : Bool
  regWrite : Bool
  memRead : Bool
  memWrite : Bool
  branch : Bool
  aluOp : AluOp
  deriving DecidableEq, Repr

/-- The Control Unit (R81): a function of the opcode alone; no signals for an opcode outside its table (R83). -/
def controlUnit (op : BitVec 7) : Option ControlSignals :=
  match op with
  | 0b0110011#7 => some ⟨false, false, true, false, false, false, .rtype⟩
  | 0b0010011#7 => some ⟨true, false, true, false, false, false, .itype⟩
  | 0b0000011#7 => some ⟨true, true, true, true, false, false, .mem⟩
  | 0b0100011#7 => some ⟨true, false, false, false, true, false, .mem⟩
  | 0b1100011#7 => some ⟨false, false, false, false, false, true, .branch⟩
  | _ => none

/-- The R85 table. -/
def aluControlR (f3 : BitVec 3) (f7 : BitVec 7) : Except Cause AluCode :=
  match f3, f7 with
  | 0b000#3, 0b0000000#7 => .ok .add
  | 0b001#3, 0b0000000#7 => .ok .sll
  | 0b010#3, 0b0000000#7 => .ok .slt
  | 0b011#3, 0b0000000#7 => .ok .sltu
  | 0b100#3, 0b0000000#7 => .ok .xor
  | 0b101#3, 0b0000000#7 => .ok .srl
  | 0b110#3, 0b0000000#7 => .ok .or
  | 0b111#3, 0b0000000#7 => .ok .and
  | 0b000#3, 0b0100000#7 => .ok .sub
  | 0b101#3, 0b0100000#7 => .ok .sra
  | _, _ => .error .unsupportedFunct

/-- The R86 table: `funct7` is not consulted. -/
def aluControlI (f3 : BitVec 3) : AluCode :=
  match f3 with
  | 0b000#3 => .add
  | 0b001#3 => .sll
  | 0b010#3 => .slt
  | 0b011#3 => .sltu
  | 0b100#3 => .xor
  | 0b101#3 => .srl
  | 0b110#3 => .or
  | _ => .and

/-- The ALU control (R84). -/
def aluControl (op : AluOp) (f3 : BitVec 3) (f7 : BitVec 7) : Except Cause AluCode :=
  match op with
  | .mem => .ok .add
  | .branch => .ok .sub
  | .rtype => aluControlR f3 f7
  | .itype => .ok (aluControlI f3)

/-- The non-canonical words of R67, which `STRICT_RV32I` = true refuses. -/
def nonCanonical (w : Word) : Bool :=
  match opcode w with
  | 0b0000011#7 => funct3 w != 0b010#3
  | 0b0100011#7 => funct3 w != 0b010#3
  | 0b1100011#7 => funct3 w != 0b000#3
  | 0b0010011#7 => (funct3 w == 0b001#3 || funct3 w == 0b101#3) && funct7 w != 0b0000000#7
  | _ => false

/-- The checks that precede every mutation, in the order of R100 and R168: data address, then branch target. -/
def datapathCheck (s : State) (c : ControlSignals) (result nextPc : Word) (taken : Bool) : Option Cause :=
  if (c.memWrite || c.memRead) && misaligned result then some .memMisaligned
  else if (c.memWrite || c.memRead) && decide (s.cfg.dmemSize ≤ result.toNat) then some .memOutOfRange
  else if taken && misaligned nextPc then some .branchTargetMisaligned
  else none

/-- Stages 4 to 6 of R100: memory access (R104), write-back (R105), pc update (R106). -/
def datapathCommit (s : State) (c : ControlSignals) (rd : RegIdx) (result rb nextPc : Word) : State :=
  { s with
    dmem := if c.memWrite then s.dmem.writeWord s.cfg.byteOrder result.toNat rb else s.dmem
    regs := s.regs.write c.regWrite rd
      (mux result
        (if c.memRead && !c.memWrite then s.dmem.readWord s.cfg.byteOrder result.toNat
          else Config.undrivenReadData result)
        c.memToReg)
    pc := nextPc }

/-- Stages 2 to 6 of R100 for the fetched word `w`: an error cause, or the state after the step. -/
def datapathWord (w : Word) (s : State) : Except Cause State :=
  match controlUnit (opcode w) with
  | none => .error .unsupportedOpcode
  | some c =>
    match aluControl c.aluOp (funct3 w) (funct7 w) with
    | .error e => .error e
    | .ok code =>
      if s.cfg.strict && nonCanonical w then .error .unsupportedFunct
      else
        let rb := s.readReg (rs2Field w)
        let out := alu (s.readReg (rs1Field w)) (mux rb (immGen w) c.aluSrc) code
        let taken := c.branch && out.2
        let nextPc := mux (s.pc + 4#32) (s.pc + immGen w) taken
        match datapathCheck s c out.1 nextPc taken with
        | some e => .error e
        | none => .ok (datapathCommit s c (rdField w) out.1 rb nextPc)

/-- The step of R100 whole. -/
def datapathStep (s : State) : State :=
  match s.status with
  | .halted => s
  | .running =>
    match s.fetch with
    | none => s.haltClean
    | some w =>
      match datapathWord w s with
      | .error c => s.raise c
      | .ok t => t

end Sys2Proof.Machine
end

