-- ==== Sys2Proof/Machine/HostInterface.lean ====
section
/-!
DEFINITION. The host boundary: the step's result and the "advance one cycle" operation (spec/40_datapath.md R107, spec/70_reset_and_hazards.md
R200), the codes and ports (spec/10_state.md R23, R28; spec/60_exceptions.md R167), observation and dump (R201, R202), reset (R191).
-/

namespace Sys2Proof.Machine

/-! ## The result of a step (R107) -/

/-- CONTINUE, END (clean halt) or ERROR(cause). -/
inductive StepResult where
  | continues
  | ends
  | error (c : Cause)
  deriving DecidableEq, Repr

/-- The result a step returned, read off the state it left: RUNNING is CONTINUE, HALTED without a cause is END, HALTED with one is
ERROR. For a step of a HALTED machine too (R99, R100 stage 0). -/
def State.result (s : State) : StepResult :=
  match s.status with
  | .running => .continues
  | .halted =>
    match s.fault with
    | none => .ends
    | some c => .error c

/-- "Advance one cycle" (R200): the state after the step and the boolean the host is given, true exactly for CONTINUE. A step
that did not answer a next state would give nothing; no step does so. -/
def advance (s : State) : Option (State × Bool) :=
  match step s with
  | .next t => some (t, decide (t.result = .continues))
  | .fault _ => none
  | .refused _ => none

/-! ## Codes (R23, R167) -/

/-- 1 is RUNNING, 0 is HALTED. -/
def RunStatus.code : RunStatus → BitVec 1
  | .halted => 0
  | .running => 1

/-- The 3-bit code of a cause; 0 is NONE, 6 and 7 are never produced. -/
def faultCode : Option Cause → BitVec 3
  | none => 0
  | some .unsupportedOpcode => 1
  | some .unsupportedFunct => 2
  | some .memMisaligned => 3
  | some .memOutOfRange => 4
  | some .branchTargetMisaligned => 5

/-- The class of a cause (R160, R165, R167). -/
def causeClass : Cause → ErrorClass
  | .unsupportedOpcode => .decodeError
  | .unsupportedFunct => .decodeError
  | .memMisaligned => .memoryError
  | .memOutOfRange => .memoryError
  | .branchTargetMisaligned => .branchTargetError

/-! ## Observation (R27, R201, R202) -/

/-- The host's read of a data-memory word: `dmem[w]` at an aligned in-range address; nothing is defined elsewhere (log
entry 16). -/
def State.hostWord (s : State) (addr : Word) : Option Word :=
  match s.memRead addr with
  | .ok v => some v
  | .error _ => none

/-- One byte of the host's dump (R36), for an address of the data space. -/
def State.dumpByte (s : State) (a : Nat) : Option Byte :=
  if a < s.cfg.dmemSize then some (s.dmem.readByte a) else none

/-- The byte dump of `n` bytes from address `a` on, as far as the data space goes. -/
def State.dumpBytes (s : State) (a n : Nat) : List Byte :=
  (List.range' a n).filterMap s.dumpByte

/-- The outputs of R28, for the host's two debug inputs. -/
structure Ports where
  imemAddr : Word
  imemHit : Bool
  imemData : Option Word
  running : Bool
  faultCode : BitVec 3
  dbgRegVal : Word
  dbgPc : Word
  dbgMemVal : Option Word
  deriving DecidableEq, Repr

/-- What the ports show in state `s`; `imem_data` is the word the instruction memory answers, ignored on a miss. -/
def ports (s : State) (dbgRegIdx : RegIdx) (dbgMemAddr : Word) : Ports where
  imemAddr := s.pc
  imemHit := s.fetch.isSome
  imemData := s.fetch
  running := s.status.code == 1#1
  faultCode := Machine.faultCode s.fault
  dbgRegVal := s.readReg dbgRegIdx
  dbgPc := s.pc
  dbgMemVal := s.hostWord dbgMemAddr

/-! ## The clock edge (R28, R191) -/

/-- A rising edge of `clk`: the reset values when `rst` is 1, else one step. Reset discards the whole state and keeps the
configuration, IMEM among it (R174, R190). -/
def clockEdge (rst : Bool) (s : State) : Host.Outcome State Fault Refusal :=
  if rst then .next (State.resetWith s.cfg) else step s

end Sys2Proof.Machine
end

