-- ==== Sys2Proof/Machine/Loader.lean ====
section
/-!
DEFINITION. The program image format (spec/70_reset_and_hazards.md R204), recorded there for the host's side: 32 characters of
0 and 1 a line, bit 31 first, blank lines skipped, addresses in file order. Nothing else of the loader is modelled (spec/00_scope.md R3).
-/

namespace Sys2Proof.Machine

/-- The bit a character stands for. -/
def parseBit (c : Char) : Option Bool :=
  if c = '0' then some false else if c = '1' then some true else none

/-- Read characters as bits, the first the most significant, onto the word read so far. -/
def parseBits (acc : Word) : List Char → Option Word
  | [] => some acc
  | c :: cs =>
    match parseBit c with
    | none => none
    | some b => parseBits (acc <<< 1 ||| (if b then 1 else 0)) cs

/-- One instruction line: exactly 32 characters of 0 and 1. -/
def parseLine (line : List Char) : Option Word :=
  if line.length = 32 then parseBits 0 line else none

/-- A blank line: white space only (log entry 14). -/
def blankLine (line : List Char) : Bool := line.all fun c => c == ' ' || c == '\t' || c == '\r'

/-- The program image: one word per line that is not blank, in file order; a malformed line is a fatal load error, "invalid
program image", and there is then no image at all (60_exceptions.md R170). -/
def parseImage : List (List Char) → Option (List Word)
  | [] => some []
  | line :: lines =>
    if blankLine line then parseImage lines
    else
      match parseLine line, parseImage lines with
      | some w, some ws => some (w :: ws)
      | _, _ => none

/-- The 32-character line of a word: character k is bit 31 - k (R204). -/
def imageLine (w : Word) : List Char :=
  (List.range 32).map fun k => if w.getLsbD (31 - k) then '1' else '0'

/-- The machine a well-formed image gives under the other parameters of `c`; no state on a load error or on a configuration
outside its bounds (R170, R192). -/
def bootImage (c : Config) (lines : List (List Char)) : Option State :=
  match parseImage lines with
  | none => none
  | some ws => State.boot { c with imem := ws }

end Sys2Proof.Machine
end

