-- ==== Sys2Proof/Safety.lean ====
section
/-!
DEFINITION. What counts as a good state, a successful end and a frame, in the terms the statements use.
-/

namespace Sys2Proof.Machine

/-- A successful final state: HALTED with no cause latched (spec/60_exceptions.md R169). -/
abbrev State.successful (s : State) : Prop := s.status = .halted ∧ s.fault = none

/-- A run that ended in error (spec/70_reset_and_hazards.md R193). -/
abbrev State.endedInError (s : State) : Prop := s.status = .halted ∧ s.fault ≠ none

/-- The invariant of the machine: parameters inside their bounds (R6), pc a multiple of 4 (R15), no cause latched while RUNNING (R22),
the data memory canonical and inside the data space (R20, R30). -/
structure State.Inv (s : State) : Prop where
  config : s.cfg.wf
  pcAligned : s.pc.toNat % 4 = 0
  faultOnlyHalted : s.status = .running → s.fault = none
  memCanonical : s.dmem.wf
  memWithin : s.dmem.within s.cfg.dmemSize

/-- The frame every instruction keeps: configuration, and status and fault where the step completes. -/
structure SameControl (s t : State) : Prop where
  cfg : t.cfg = s.cfg
  status : t.status = s.status
  fault : t.fault = s.fault

/-- Every byte of the data memory reads as before. -/
def SameMemory (s t : State) : Prop := ∀ a, t.dmem.readByte a = s.dmem.readByte a

/-- Every register reads as before. -/
def SameRegs (s t : State) : Prop := ∀ r, t.readReg r = s.readReg r

/-- What an instruction that writes register `rd` and moves on leaves: `v` in `rd` (dropped when `rd` is 0), every other register, every
byte of memory, configuration, status and fault as before, pc + 4. -/
structure RegisterStep (s t : State) (rd : RegIdx) (v : Word) : Prop where
  dest : t.readReg rd = if rd = 0#5 then 0#32 else v
  others : ∀ r, r ≠ rd → t.readReg r = s.readReg r
  pc : t.pc = s.pc + 4#32
  memory : SameMemory s t
  control : SameControl s t

/-- What storing the word `v` at address `addr` and moving on leaves: each byte of the word where the byte order puts it, the word read
back whole, every byte outside those four as before, no register changed, pc + 4. -/
structure StoreStep (s t : State) (addr v : Word) : Prop where
  stored : t.loadWord addr = v
  bytes : ∀ k, k < 4 → t.dmem.readByte (addr.toNat + k) = byteAt s.cfg.byteOrder v k
  outside : ∀ a, a < addr.toNat ∨ addr.toNat + 4 ≤ a → t.dmem.readByte a = s.dmem.readByte a
  regs : SameRegs s t
  pc : t.pc = s.pc + 4#32
  control : SameControl s t

/-- What a control transfer to `target` leaves: the pc; no register, no byte of memory changed. -/
structure BranchStep (s t : State) (target : Word) : Prop where
  pc : t.pc = target
  regs : SameRegs s t
  memory : SameMemory s t
  control : SameControl s t

/-- What an error leaves (spec/60_exceptions.md R166): HALTED and the cause; everything else as before. -/
structure ErrorStep (s t : State) (c : Cause) : Prop where
  status : t.status = .halted
  fault : t.fault = some c
  regs : SameRegs s t
  pc : t.pc = s.pc
  memory : SameMemory s t
  cfg : t.cfg = s.cfg

/-- Two states that differ at most in DMEM_BYTE_ORDER, holding the same word at every aligned address (spec/20_memory.md R36). -/
structure SameButOrder (s t : State) : Prop where
  cfg : { t.cfg with byteOrder := s.cfg.byteOrder } = s.cfg
  regs : t.regs = s.regs
  pc : t.pc = s.pc
  status : t.status = s.status
  fault : t.fault = s.fault
  words : ∀ a, a % 4 = 0 →
    t.dmem.readWord t.cfg.byteOrder a = s.dmem.readWord s.cfg.byteOrder a

/-- The next step of `s` runs a SW to address `a` (spec/43_load_store.md R142, R143). -/
def State.runsStoreTo (s : State) (a : Word) : Prop :=
  s.status = .running ∧ ∃ w rs1 rs2 f3 imm, s.fetch = some w ∧ decode s.cfg.strict w = .ok (.sw rs1 rs2 f3 imm) ∧
    s.dataAddress rs1 imm = a

/-- None of the first `k` steps from `s` runs a SW to address `a`. -/
def NoStoreDuring (k : Nat) (s : State) (a : Word) : Prop :=
  ∀ j m, j < k → core.run j s = .next m → ¬ m.runsStoreTo a

/-- Under `STRICT_RV32I` = false instead of what it is. -/
def State.loosened (s : State) : State := { s with cfg := { s.cfg with strict := false } }

/-- A row of the opcode table, as decoding sees it (spec/30_encoding.md R62, R67): every word of the row decodes to the instruction `build`
makes of it, and with `STRICT_RV32I` = true exactly its canonical words do, the others raising UNSUPPORTED_FUNCT. -/
def RowDecodes (mask pattern strictMask strictPattern : Word) (build : Word → Instr) : Prop :=
  ∀ w : Word, w &&& mask = pattern →
    decode false w = .ok (build w) ∧
      decode true w = if w &&& strictMask = strictPattern then .ok (build w) else .error .unsupportedFunct

/-- The five opcodes of the Control Unit's table (spec/30_encoding.md R60). -/
def supportedOpcodes : List (BitVec 7) :=
  [0b0110011#7, 0b0010011#7, 0b0000011#7, 0b0100011#7, 0b1100011#7]

/-- The ten (funct3, funct7) pairs of the OP class (spec/30_encoding.md R61). -/
def supportedFuncts : List (BitVec 3 × BitVec 7) :=
  [(0b000#3, 0b0000000#7), (0b000#3, 0b0100000#7), (0b001#3, 0b0000000#7), (0b010#3, 0b0000000#7),
    (0b011#3, 0b0000000#7), (0b100#3, 0b0000000#7), (0b101#3, 0b0000000#7), (0b101#3, 0b0100000#7),
    (0b110#3, 0b0000000#7), (0b111#3, 0b0000000#7)]

/-- The words `STRICT_RV32I` = true refuses, in the words of R67 (spec/30_encoding.md). -/
def RefusedWhenStrict (w : Word) : Prop :=
  (opcode w = 0b0000011#7 ∧ funct3 w ≠ 0b010#3) ∨ (opcode w = 0b0100011#7 ∧ funct3 w ≠ 0b010#3) ∨
    (opcode w = 0b1100011#7 ∧ funct3 w ≠ 0b000#3) ∨
    (opcode w = 0b0010011#7 ∧ (funct3 w = 0b001#3 ∨ funct3 w = 0b101#3) ∧ funct7 w ≠ 0b0000000#7)

end Sys2Proof.Machine
end

