-- ==== Sys2Proof/Certificates/Slice0/Obligations.lean ====
section
/-!
DEFINITION. The statements for the provers. Each docstring names the rules of spec/ it formalises.
-/

open Sys2Proof Sys2Proof.Machine

/-- O1. One word of each family, written out in the spec, decodes to the instruction it stands for (R61, R62, 95_test_vectors.md sections 3, 5, 6, 7, 8).
The spec states this as its own decision D1 (92_eei_decisions.md). -/
def Obligations.SampleWordsDecode : Prop :=
  decode false 0x002081B3#32 = .ok (.add 3 1 2) ∧ decode false 0x402081B3#32 = .ok (.sub 3 1 2) ∧
    decode false 0xFFF08193#32 = .ok (.addi 3 1 0xFFF) ∧ decode false 0x0040D193#32 = .ok (.srli 3 1 4) ∧
    decode false 0xFFC0A183#32 = .ok (.lw 3 1 0b010 0xFFC) ∧ decode false 0xFE532E23#32 = .ok (.sw 6 5 0b010 0xFFC) ∧
    decode false 0xFE208CE3#32 = .ok (.beq 1 2 0b000 0xFFC) ∧ decode false 0x00000073#32 = .error .unsupportedOpcode ∧
    decode false 0x022081B3#32 = .error .unsupportedFunct

/-- O2. Decoding the encoding of a well-formed instruction gives it back, every operand at every value (R52, R54, R55, R56, R61, R69).
The spec states this as its own decision D1 (92_eei_decisions.md).
Note: the bits the hardware ignores are operands of Instr, the model's choice, log entry 7. -/
def Obligations.DecodeOfEncode : Prop :=
  ∀ (strict : Bool) (i : Instr), i.wellFormed strict = true → decode strict (encode i) = .ok i

/-- O3. A decoded word is the encoding of what it decoded to, and that instruction is well formed (R50, R51, R52, R69).
Note: that encode gives the word back bit for bit rests on the model's choice to keep in Instr the bits the hardware ignores, log entry 7. -/
def Obligations.EncodeOfDecode : Prop :=
  ∀ (strict : Bool) (w : Word) (i : Instr), decode strict w = .ok i → encode i = w ∧ i.wellFormed strict = true

/-- O4. The 21 rows do not overlap and cover exactly the words that decode (R62). -/
def Obligations.RowsAreTheDecodableWords : Prop :=
  ∀ w : Word,
    (∀ r ∈ opcodeTable, ∀ r' ∈ opcodeTable, r.covers w → r'.covers w → r = r') ∧
    ((∃ r ∈ opcodeTable, r.covers w) ↔ ∃ i, decode false w = .ok i) ∧
    ((∃ r ∈ opcodeTable, r.covers w ∧ r.coversStrict w) ↔ ∃ i, decode true w = .ok i) ∧
    ∀ i, decode false w = .ok i → i.row ∈ opcodeTable ∧ i.row.covers w

/-- O5. A word whose opcode is not one of the five raises UNSUPPORTED_OPCODE and changes nothing else (R63, R161). -/
def Obligations.UnsupportedOpcodeRaises : Prop :=
  (∀ (strict : Bool) (w : Word),
    decode strict w = .error .unsupportedOpcode ↔ opcode w ∉ supportedOpcodes) ∧
  ∀ (s : State) (w : Word), s.status = .running → s.fetch = some w → opcode w ∉ supportedOpcodes →
    ∃ t, step s = .next t ∧ ErrorStep s t .unsupportedOpcode

/-- O6. An OP word outside the ten pairs, or with STRICT_RV32I a non-canonical word, raises UNSUPPORTED_FUNCT (R64, R162). -/
def Obligations.UnsupportedFunctRaises : Prop :=
  (∀ (strict : Bool) (w : Word), decode strict w = .error .unsupportedFunct ↔
    (opcode w = 0b0110011#7 ∧ (funct3 w, funct7 w) ∉ supportedFuncts) ∨ (strict = true ∧ RefusedWhenStrict w)) ∧
  ∀ (s : State) (w : Word), s.status = .running → s.fetch = some w →
    ((opcode w = 0b0110011#7 ∧ (funct3 w, funct7 w) ∉ supportedFuncts) ∨
      (s.cfg.strict = true ∧ RefusedWhenStrict w)) →
    ∃ t, step s = .next t ∧ ErrorStep s t .unsupportedFunct

/-- O7. A word accepted with STRICT_RV32I = true runs identically with false (R67).
The spec states this as its own decision D4 (92_eei_decisions.md). -/
def Obligations.StrictRunsAsLoose : Prop :=
  ∀ (s t : State) (w : Word) (i : Instr), s.status = .running → s.fetch = some w → decode s.cfg.strict w = .ok i →
    step s = .next t → step s.loosened = .next t.loosened

/-- O8. No OP-IMM word is refused, and SLLI and SRLI look at instr[24:20] only: there is no SRAI (R65, R89, R133).
The spec states this as its own decisions D5, D6 (92_eei_decisions.md). -/
def Obligations.ShiftImmediateIgnoresHighBits : Prop :=
  (∀ w : Word, opcode w = 0b0010011#7 → ∃ i, decode false w = .ok i) ∧
  ∀ (rd rs1 : RegIdx) (imm imm' : BitVec 12) (s : State), imm.toNat % 32 = imm'.toNat % 32 →
    exec (.slli rd rs1 imm) s = exec (.slli rd rs1 imm') s ∧ exec (.srli rd rs1 imm) s = exec (.srli rd rs1 imm') s

/-- O9. Every LOAD word is LW, every STORE word SW, every BRANCH word BEQ, whatever funct3 (R66).
The spec states this as its own decision D4 (92_eei_decisions.md). -/
def Obligations.Funct3IgnoredByLoadStoreBranch : Prop :=
  (∀ w : Word, opcode w = 0b0000011#7 → decode false w = .ok (.lw (rdField w) (rs1Field w) (funct3 w) (iGroup w))) ∧
  (∀ w : Word, opcode w = 0b0100011#7 → decode false w = .ok (.sw (rs1Field w) (rs2Field w) (funct3 w) (sGroup w))) ∧
  (∀ w : Word, opcode w = 0b1100011#7 → decode false w = .ok (.beq (rs1Field w) (rs2Field w) (funct3 w) (bGroup w))) ∧
  ∀ (a b : RegIdx) (f f' : BitVec 3) (imm : BitVec 12) (s : State),
    exec (.lw a b f imm) s = exec (.lw a b f' imm) s ∧ exec (.sw a b f imm) s = exec (.sw a b f' imm) s ∧
      exec (.beq a b f imm) s = exec (.beq a b f' imm) s

/-- O10. The I, S and B immediates are the signed values of their bit groups; an R word's is 0 (R54, R55, R56, R57, R58).
The spec states this as its own decision D20 (92_eei_decisions.md). -/
def Obligations.ImmediateGeneratorValues : Prop :=
  ∀ w : Word,
    ((opcode w = 0b0010011#7 ∨ opcode w = 0b0000011#7) → (immGen w).toInt =
      (w.toNat / 2 ^ 20 : Nat) - (if w.getLsbD 31 then 2 ^ 12 else 0)) ∧
    (opcode w = 0b0100011#7 → (immGen w).toInt =
      (w.toNat / 2 ^ 25 * 2 ^ 5 + w.toNat / 2 ^ 7 % 2 ^ 5 : Nat) - (if w.getLsbD 31 then 2 ^ 12 else 0)) ∧
    (opcode w = 0b1100011#7 → (immGen w).toInt =
      (w.toNat / 2 ^ 31 * 2 ^ 12 + w.toNat / 2 ^ 7 % 2 * 2 ^ 11 + w.toNat / 2 ^ 25 % 2 ^ 6 * 2 ^ 5
        + w.toNat / 2 ^ 8 % 2 ^ 4 * 2 : Nat) - (if w.getLsbD 31 then 2 ^ 13 else 0)) ∧
    (opcode w = 0b0110011#7 → immGen w = 0#32)

/-- O11. Sign extension keeps the two's-complement value; branch offsets are even (R59). -/
def Obligations.SignExtensionKeepsValue : Prop :=
  (∀ v : BitVec 12, (sext12 v).toInt = v.toInt ∧
    (sext12 v).toNat = if v.getLsbD 11 then 2 ^ 32 - 2 ^ 12 + v.toNat else v.toNat) ∧
  (∀ v : BitVec 13, (sext13 v).toInt = v.toInt ∧
    (sext13 v).toNat = if v.getLsbD 12 then 2 ^ 32 - 2 ^ 13 + v.toNat else v.toNat) ∧
  (∀ off : BitVec 12, (branchOffset off).toNat % 2 = 0) ∧
  sext12 0b100000000000#12 = 0xFFFFF800#32 ∧ sext12 0b011111111111#12 = 0x000007FF#32 ∧
  sext12 0b111111111111#12 = 0xFFFFFFFF#32

/-- O12. The control signals of the five classes, and none for any other opcode (R81, R83).
The spec states this as its own decisions D2, D21 (92_eei_decisions.md). -/
def Obligations.ControlSignalTable : Prop :=
  controlUnit 0b0110011#7 = some ⟨false, false, true, false, false, false, .rtype⟩ ∧
  controlUnit 0b0010011#7 = some ⟨true, false, true, false, false, false, .itype⟩ ∧
  controlUnit 0b0000011#7 = some ⟨true, true, true, true, false, false, .mem⟩ ∧
  controlUnit 0b0100011#7 = some ⟨true, false, false, false, true, false, .mem⟩ ∧
  controlUnit 0b1100011#7 = some ⟨false, false, false, false, false, true, .branch⟩ ∧
  ∀ op : BitVec 7, op ∉ supportedOpcodes → controlUnit op = none

/-- O13. The ten ALU codes compute the spec's formulas, and zero is true iff the result is 0 (R87, R88, R89, R90, R91).
The spec states this as its own decisions D6, D7 (92_eei_decisions.md). -/
def Obligations.AluComputesItsFormulas : Prop :=
  ∀ a b : Word,
    aluResult .add a b = BitVec.ofNat 32 (a.toNat + b.toNat) ∧
    aluResult .sub a b = BitVec.ofInt 32 (a.toInt - b.toInt) ∧
    (∀ i, i < 32 → (aluResult .and a b).getLsbD i = (a.getLsbD i && b.getLsbD i) ∧
      (aluResult .or a b).getLsbD i = (a.getLsbD i || b.getLsbD i) ∧
      (aluResult .xor a b).getLsbD i = (a.getLsbD i ^^ b.getLsbD i)) ∧
    aluResult .sll a b = BitVec.ofNat 32 (a.toNat * 2 ^ (b.toNat % 32)) ∧
    aluResult .srl a b = BitVec.ofNat 32 (a.toNat / 2 ^ (b.toNat % 32)) ∧
    aluResult .sra a b = BitVec.ofInt 32 (a.toInt / 2 ^ (b.toNat % 32)) ∧
    aluResult .slt a b = (if a.toInt < b.toInt then 1#32 else 0#32) ∧
    aluResult .sltu a b = (if a.toNat < b.toNat then 1#32 else 0#32) ∧
    ∀ code, (alu a b code).1 = aluResult code a b ∧ ((alu a b code).2 = true ↔ (alu a b code).1 = 0#32)

/-- O14. The machine's step is the step of R100, control signals, multiplexers and all (R100). -/
def Obligations.StepIsTheDatapath : Prop :=
  ∀ s : State, step s = .next (datapathStep s)

/-- O15. A RUNNING step runs the instruction that the word at the pc decodes to (R98, R100, R102).
Note: decode makes the STRICT_RV32I check, log entry 8. -/
def Obligations.StepRunsTheDecodedInstruction : Prop :=
  ∀ (s : State) (w : Word) (i : Instr), s.status = .running → s.fetch = some w → decode s.cfg.strict w = .ok i →
    step s = exec i s

/-- O16. Steps of a HALTED machine change nothing, after a clean halt and after an error alike (R99). -/
def Obligations.HaltedIsTerminal : Prop :=
  ∀ (s : State) (k : Nat), s.status = .halted → core.run k s = .next s

/-- O17. Fetch reads word pc/4 of the image; a miss is the clean halt and changes only the status (R18, R38, R39, R101).
Note: the miss at a misaligned pc is R39's own inference, which the model deduces, log entry 12. -/
def Obligations.FetchReadsTheImage : Prop :=
  ∀ s : State,
    (∀ h : s.pc.toNat / 4 < s.cfg.imem.length, s.pc.toNat % 4 = 0 → s.fetch = some (s.cfg.imem[s.pc.toNat / 4]'h)) ∧
    (s.fetch = none ↔ s.pc.toNat % 4 ≠ 0 ∨ s.cfg.imem.length ≤ s.pc.toNat / 4) ∧
    (s.status = .running → s.fetch = none → ∃ t, step s = .next t ∧ t.status = .halted ∧ t.fault = s.fault ∧
      t.pc = s.pc ∧ t.regs = s.regs ∧ t.dmem = s.dmem ∧ t.cfg = s.cfg)

/-- O18. A step that halts changes nothing but status and fault: errors are atomic (R166).
The spec states this as its own decision D15 (92_eei_decisions.md). -/
def Obligations.HaltingStepsChangeOnlyStatusAndFault : Prop :=
  ∀ s t : State, s.status = .running → step s = .next t → t.status = .halted →
    t = { s with status := .halted, fault := t.fault } ∧
      ((s.fetch = none ∧ t.fault = s.fault) ∨ (s.fetch ≠ none ∧ ∃ c, t.fault = some c))

/-- O19. The step is total: it answers a next state in every state, and never leaves HALTED (R21, R22, R98, R100).
The spec states this as its own decision D15 (92_eei_decisions.md).
Note: errors are next states, log entry 2. -/
def Obligations.EveryStepAnswersAState : Prop :=
  ∀ s : State, ∃ t, step s = .next t ∧ t.cfg = s.cfg ∧ (t.status = .running → s.status = .running) ∧
    (s.status = .running → t.fault ≠ s.fault → t.status = .halted)

/-- O20. Every step keeps the invariant: pc aligned, latch clear while RUNNING, memory canonical and in range (R6, R15, R20, R22, R30).
The spec states this as its own decisions D4, D9, D11, D12, D15, D22 (92_eei_decisions.md).
Note: the canonical form of the memory is the model's choice, log entry 3. -/
def Obligations.StepKeepsTheInvariant : Prop :=
  ∀ s t : State, s.Inv → step s = .next t → t.Inv

/-- O21. The invariant holds right after reset, under every admitted configuration (R6, R190).
The spec states this as its own decisions D4, D9, D11, D12, D19, D22 (92_eei_decisions.md).
Note: the model's choices: State.reset under the default parameters with no program, log entry 1; State.boot, log entry 9. -/
def Obligations.InvariantAtReset : Prop :=
  State.reset.Inv ∧ State.reset = State.resetWith Config.default ∧
    ∀ c : Config, c.wf → (State.resetWith c).Inv ∧ State.boot c = some (State.resetWith c)

/-- O22. Reset: pc 0, RUNNING, no fault, every register 0, data memory DMEM_INIT in either byte order (R190, R28, R191).
The spec states this as its own decisions D12, D18, D19 (92_eei_decisions.md).
Note: the model holds DMEM_INIT as a list with 0 past its end, log entry 3; the clock edge with rst follows log entry 13. -/
def Obligations.ResetValues : Prop :=
  (∀ c : Config, (State.resetWith c).pc = 0#32 ∧ (State.resetWith c).status = .running ∧
    (State.resetWith c).fault = none ∧ (∀ r, (State.resetWith c).readReg r = 0#32) ∧
    ∀ w, (State.resetWith c).dmem.readWord c.byteOrder (4 * w) = c.dmemInit.getD w 0#32) ∧
  ∀ s : State, clockEdge true s = .next (State.resetWith s.cfg)

/-- O23. After a successful step the pc is pc+4 or the branch target; a halting step leaves it (R16). -/
def Obligations.PcAfterAStep : Prop :=
  ∀ s t : State, step s = .next t →
    (s.status = .running → t.status = .running → ∃ w, s.fetch = some w ∧
      t.pc = if opcode w = 0b1100011#7 ∧ s.readReg (rs1Field w) = s.readReg (rs2Field w) then s.pc + immGen w
        else s.pc + 4#32) ∧
    (t.status = .halted → t.pc = s.pc)

/-- O24. A step writes at most register rd, or the one word at the store's address (R12, R81, R104, R105, R108).
The spec states this as its own decisions D2, D21 (92_eei_decisions.md). -/
def Obligations.WhatAWordMayWrite : Prop :=
  ∀ (s t : State) (w : Word), s.dmem.wf → s.status = .running → s.fetch = some w → step s = .next t →
    (∀ r, r ≠ rdField w → t.readReg r = s.readReg r) ∧
    ((opcode w = 0b0100011#7 ∨ opcode w = 0b1100011#7) → SameRegs s t) ∧
    (opcode w ≠ 0b0100011#7 → SameMemory s t) ∧
    ∀ a, a < (s.readReg (rs1Field w) + immGen w).toNat ∨ (s.readReg (rs1Field w) + immGen w).toNat + 4 ≤ a →
      t.dmem.readByte a = s.dmem.readByte a

/-- O25. No run changes the instruction memory or any other parameter: no self-modifying code (R19, R44, R197). -/
def Obligations.ParametersNeverChange : Prop :=
  ∀ (s t : State) (k : Nat), core.run k s = .next t → t.cfg = s.cfg

/-- O26. x0 reads as 0 for every history, writes to it are discarded, any other write is read back (R11, R12). -/
def Obligations.RegisterFilePorts : Prop :=
  (∀ rf : RegFile, rf.read 0#5 = 0#32) ∧
  (∀ (rf : RegFile) (en : Bool) (v : Word), rf.write en 0#5 v = rf) ∧
  (∀ (rf : RegFile) (i : RegIdx) (v : Word), rf.write false i v = rf) ∧
  ∀ (rf : RegFile) (i j : RegIdx) (v : Word), i ≠ 0#5 → (rf.write true i v).read j = if j = i then v else rf.read j

/-- O27. ADD: its encoding, its result in rd, pc + 4, and nothing else changed (R111). -/
def Obligations.AddWritesItsResult : Prop :=
  RowDecodes 0xFE00707F#32 0x00000033#32 0xFE00707F#32 0x00000033#32
    (fun w => .add (rdField w) (rs1Field w) (rs2Field w)) ∧
  ∀ (rd rs1 rs2 : RegIdx) (s : State), ∃ t, exec (.add rd rs1 rs2) s = .next t ∧
    RegisterStep s t rd (BitVec.ofNat 32 ((s.readReg rs1).toNat + (s.readReg rs2).toNat))

/-- O28. SUB: its encoding, its result in rd, pc + 4, and nothing else changed (R112). -/
def Obligations.SubWritesItsResult : Prop :=
  RowDecodes 0xFE00707F#32 0x40000033#32 0xFE00707F#32 0x40000033#32
    (fun w => .sub (rdField w) (rs1Field w) (rs2Field w)) ∧
  ∀ (rd rs1 rs2 : RegIdx) (s : State), ∃ t, exec (.sub rd rs1 rs2) s = .next t ∧
    RegisterStep s t rd (BitVec.ofInt 32 ((s.readReg rs1).toInt - (s.readReg rs2).toInt))

/-- O29. SLL: its encoding, its result in rd, pc + 4, and nothing else changed (R113). -/
def Obligations.SllWritesItsResult : Prop :=
  RowDecodes 0xFE00707F#32 0x00001033#32 0xFE00707F#32 0x00001033#32
    (fun w => .sll (rdField w) (rs1Field w) (rs2Field w)) ∧
  ∀ (rd rs1 rs2 : RegIdx) (s : State), ∃ t, exec (.sll rd rs1 rs2) s = .next t ∧
    RegisterStep s t rd (BitVec.ofNat 32 ((s.readReg rs1).toNat * 2 ^ ((s.readReg rs2).toNat % 32)))

/-- O30. SLT: its encoding, its result in rd, pc + 4, and nothing else changed (R114). -/
def Obligations.SltWritesItsResult : Prop :=
  RowDecodes 0xFE00707F#32 0x00002033#32 0xFE00707F#32 0x00002033#32
    (fun w => .slt (rdField w) (rs1Field w) (rs2Field w)) ∧
  ∀ (rd rs1 rs2 : RegIdx) (s : State), ∃ t, exec (.slt rd rs1 rs2) s = .next t ∧
    RegisterStep s t rd (if (s.readReg rs1).toInt < (s.readReg rs2).toInt then 1#32 else 0#32)

/-- O31. SLTU: its encoding, its result in rd, pc + 4, and nothing else changed (R115). -/
def Obligations.SltuWritesItsResult : Prop :=
  RowDecodes 0xFE00707F#32 0x00003033#32 0xFE00707F#32 0x00003033#32
    (fun w => .sltu (rdField w) (rs1Field w) (rs2Field w)) ∧
  ∀ (rd rs1 rs2 : RegIdx) (s : State), ∃ t, exec (.sltu rd rs1 rs2) s = .next t ∧
    RegisterStep s t rd (if (s.readReg rs1).toNat < (s.readReg rs2).toNat then 1#32 else 0#32)

/-- O32. XOR: its encoding, its result in rd, pc + 4, and nothing else changed (R116). -/
def Obligations.XorWritesItsResult : Prop :=
  RowDecodes 0xFE00707F#32 0x00004033#32 0xFE00707F#32 0x00004033#32
    (fun w => .xor (rdField w) (rs1Field w) (rs2Field w)) ∧
  ∀ (rd rs1 rs2 : RegIdx) (s : State), ∃ t, exec (.xor rd rs1 rs2) s = .next t ∧
    RegisterStep s t rd ((s.readReg rs1) ^^^ (s.readReg rs2))

/-- O33. SRL: its encoding, its result in rd, pc + 4, and nothing else changed (R117). -/
def Obligations.SrlWritesItsResult : Prop :=
  RowDecodes 0xFE00707F#32 0x00005033#32 0xFE00707F#32 0x00005033#32
    (fun w => .srl (rdField w) (rs1Field w) (rs2Field w)) ∧
  ∀ (rd rs1 rs2 : RegIdx) (s : State), ∃ t, exec (.srl rd rs1 rs2) s = .next t ∧
    RegisterStep s t rd (BitVec.ofNat 32 ((s.readReg rs1).toNat / 2 ^ ((s.readReg rs2).toNat % 32)))

/-- O34. SRA: its encoding, its result in rd, pc + 4, and nothing else changed (R118). -/
def Obligations.SraWritesItsResult : Prop :=
  RowDecodes 0xFE00707F#32 0x40005033#32 0xFE00707F#32 0x40005033#32
    (fun w => .sra (rdField w) (rs1Field w) (rs2Field w)) ∧
  ∀ (rd rs1 rs2 : RegIdx) (s : State), ∃ t, exec (.sra rd rs1 rs2) s = .next t ∧
    RegisterStep s t rd (BitVec.ofInt 32 ((s.readReg rs1).toInt / 2 ^ ((s.readReg rs2).toNat % 32)))

/-- O35. OR: its encoding, its result in rd, pc + 4, and nothing else changed (R119). -/
def Obligations.OrWritesItsResult : Prop :=
  RowDecodes 0xFE00707F#32 0x00006033#32 0xFE00707F#32 0x00006033#32
    (fun w => .or (rdField w) (rs1Field w) (rs2Field w)) ∧
  ∀ (rd rs1 rs2 : RegIdx) (s : State), ∃ t, exec (.or rd rs1 rs2) s = .next t ∧
    RegisterStep s t rd ((s.readReg rs1) ||| (s.readReg rs2))

/-- O36. AND: its encoding, its result in rd, pc + 4, and nothing else changed (R120). -/
def Obligations.AndWritesItsResult : Prop :=
  RowDecodes 0xFE00707F#32 0x00007033#32 0xFE00707F#32 0x00007033#32
    (fun w => .and (rdField w) (rs1Field w) (rs2Field w)) ∧
  ∀ (rd rs1 rs2 : RegIdx) (s : State), ∃ t, exec (.and rd rs1 rs2) s = .next t ∧
    RegisterStep s t rd ((s.readReg rs1) &&& (s.readReg rs2))

/-- O37. ADDI: its encoding, its result in rd, pc + 4, and nothing else changed (R126). -/
def Obligations.AddiWritesItsResult : Prop :=
  RowDecodes 0x0000707F#32 0x00000013#32 0x0000707F#32 0x00000013#32
    (fun w => .addi (rdField w) (rs1Field w) (iGroup w)) ∧
  ∀ (rd rs1 : RegIdx) (imm : BitVec 12) (s : State), ∃ t, exec (.addi rd rs1 imm) s = .next t ∧
    RegisterStep s t rd (BitVec.ofNat 32 ((s.readReg rs1).toNat + (sext12 imm).toNat))

/-- O38. SLTI: its encoding, its result in rd, pc + 4, and nothing else changed (R127). -/
def Obligations.SltiWritesItsResult : Prop :=
  RowDecodes 0x0000707F#32 0x00002013#32 0x0000707F#32 0x00002013#32
    (fun w => .slti (rdField w) (rs1Field w) (iGroup w)) ∧
  ∀ (rd rs1 : RegIdx) (imm : BitVec 12) (s : State), ∃ t, exec (.slti rd rs1 imm) s = .next t ∧
    RegisterStep s t rd (if (s.readReg rs1).toInt < imm.toInt then 1#32 else 0#32)

/-- O39. SLTIU: its encoding, its result in rd, pc + 4, and nothing else changed (R128). -/
def Obligations.SltiuWritesItsResult : Prop :=
  RowDecodes 0x0000707F#32 0x00003013#32 0x0000707F#32 0x00003013#32
    (fun w => .sltiu (rdField w) (rs1Field w) (iGroup w)) ∧
  ∀ (rd rs1 : RegIdx) (imm : BitVec 12) (s : State), ∃ t, exec (.sltiu rd rs1 imm) s = .next t ∧
    RegisterStep s t rd (if (s.readReg rs1).toNat < (sext12 imm).toNat then 1#32 else 0#32)

/-- O40. XORI: its encoding, its result in rd, pc + 4, and nothing else changed (R129). -/
def Obligations.XoriWritesItsResult : Prop :=
  RowDecodes 0x0000707F#32 0x00004013#32 0x0000707F#32 0x00004013#32
    (fun w => .xori (rdField w) (rs1Field w) (iGroup w)) ∧
  ∀ (rd rs1 : RegIdx) (imm : BitVec 12) (s : State), ∃ t, exec (.xori rd rs1 imm) s = .next t ∧
    RegisterStep s t rd ((s.readReg rs1) ^^^ (sext12 imm))

/-- O41. ORI: its encoding, its result in rd, pc + 4, and nothing else changed (R130). -/
def Obligations.OriWritesItsResult : Prop :=
  RowDecodes 0x0000707F#32 0x00006013#32 0x0000707F#32 0x00006013#32
    (fun w => .ori (rdField w) (rs1Field w) (iGroup w)) ∧
  ∀ (rd rs1 : RegIdx) (imm : BitVec 12) (s : State), ∃ t, exec (.ori rd rs1 imm) s = .next t ∧
    RegisterStep s t rd ((s.readReg rs1) ||| (sext12 imm))

/-- O42. ANDI: its encoding, its result in rd, pc + 4, and nothing else changed (R131). -/
def Obligations.AndiWritesItsResult : Prop :=
  RowDecodes 0x0000707F#32 0x00007013#32 0x0000707F#32 0x00007013#32
    (fun w => .andi (rdField w) (rs1Field w) (iGroup w)) ∧
  ∀ (rd rs1 : RegIdx) (imm : BitVec 12) (s : State), ∃ t, exec (.andi rd rs1 imm) s = .next t ∧
    RegisterStep s t rd ((s.readReg rs1) &&& (sext12 imm))

/-- O43. SLLI: its encoding, its result in rd, pc + 4, and nothing else changed (R132).
The spec states this as its own decisions D5, D6 (92_eei_decisions.md). -/
def Obligations.SlliWritesItsResult : Prop :=
  RowDecodes 0x0000707F#32 0x00001013#32 0xFE00707F#32 0x00001013#32
    (fun w => .slli (rdField w) (rs1Field w) (iGroup w)) ∧
  ∀ (rd rs1 : RegIdx) (imm : BitVec 12) (s : State), ∃ t, exec (.slli rd rs1 imm) s = .next t ∧
    RegisterStep s t rd (BitVec.ofNat 32 ((s.readReg rs1).toNat * 2 ^ (imm.toNat % 32)))

/-- O44. SRLI: its encoding, its result in rd, pc + 4, and nothing else changed (R133).
The spec states this as its own decisions D5, D6 (92_eei_decisions.md). -/
def Obligations.SrliWritesItsResult : Prop :=
  RowDecodes 0x0000707F#32 0x00005013#32 0xFE00707F#32 0x00005013#32
    (fun w => .srli (rdField w) (rs1Field w) (iGroup w)) ∧
  ∀ (rd rs1 : RegIdx) (imm : BitVec 12) (s : State), ∃ t, exec (.srli rd rs1 imm) s = .next t ∧
    RegisterStep s t rd (BitVec.ofNat 32 ((s.readReg rs1).toNat / 2 ^ (imm.toNat % 32)))

/-- O45. LW: the word at x[rs1] + imm goes to rd; a misaligned or out-of-range address raises (R141).
The spec states this as its own decisions D4, D10, D11 (92_eei_decisions.md). -/
def Obligations.LwLoadsOrRaises : Prop :=
  RowDecodes 0x0000007F#32 0x00000003#32 0x0000707F#32 0x00002003#32
    (fun w => .lw (rdField w) (rs1Field w) (funct3 w) (iGroup w)) ∧
  ∀ (rd rs1 : RegIdx) (f3 : BitVec 3) (imm : BitVec 12) (s : State),
    s.dataAddress rs1 imm = s.readReg rs1 + sext12 imm ∧
    ((s.dataAddress rs1 imm).toNat % 4 = 0 → (s.dataAddress rs1 imm).toNat < s.cfg.dmemSize →
      ∃ t, exec (.lw rd rs1 f3 imm) s = .next t ∧ RegisterStep s t rd (s.loadWord (s.dataAddress rs1 imm))) ∧
    ((s.dataAddress rs1 imm).toNat % 4 ≠ 0 →
      ∃ t, exec (.lw rd rs1 f3 imm) s = .next t ∧ ErrorStep s t .memMisaligned) ∧
    ((s.dataAddress rs1 imm).toNat % 4 = 0 → s.cfg.dmemSize ≤ (s.dataAddress rs1 imm).toNat →
      ∃ t, exec (.lw rd rs1 f3 imm) s = .next t ∧ ErrorStep s t .memOutOfRange)

/-- O46. SW: x[rs2] is stored whole at x[rs1] + imm and nothing else changes; a bad address raises (R142).
The spec states this as its own decisions D4, D10, D11 (92_eei_decisions.md). -/
def Obligations.SwStoresOrRaises : Prop :=
  RowDecodes 0x0000007F#32 0x00000023#32 0x0000707F#32 0x00002023#32
    (fun w => .sw (rs1Field w) (rs2Field w) (funct3 w) (sGroup w)) ∧
  ∀ (rs1 rs2 : RegIdx) (f3 : BitVec 3) (imm : BitVec 12) (s : State), s.dmem.wf →
    s.dataAddress rs1 imm = s.readReg rs1 + sext12 imm ∧
    ((s.dataAddress rs1 imm).toNat % 4 = 0 → (s.dataAddress rs1 imm).toNat < s.cfg.dmemSize →
      ∃ t, exec (.sw rs1 rs2 f3 imm) s = .next t ∧ StoreStep s t (s.dataAddress rs1 imm) (s.readReg rs2)) ∧
    ((s.dataAddress rs1 imm).toNat % 4 ≠ 0 →
      ∃ t, exec (.sw rs1 rs2 f3 imm) s = .next t ∧ ErrorStep s t .memMisaligned) ∧
    ((s.dataAddress rs1 imm).toNat % 4 = 0 → s.cfg.dmemSize ≤ (s.dataAddress rs1 imm).toNat →
      ∃ t, exec (.sw rs1 rs2 f3 imm) s = .next t ∧ ErrorStep s t .memOutOfRange)

/-- O47. BEQ: taken iff x[rs1] = x[rs2], to pc + imm_b; else pc + 4; a taken misaligned target raises (R150). -/
def Obligations.BeqBranchesOrFallsThrough : Prop :=
  RowDecodes 0x0000007F#32 0x00000063#32 0x0000707F#32 0x00000063#32
    (fun w => .beq (rs1Field w) (rs2Field w) (funct3 w) (bGroup w)) ∧
  ∀ (rs1 rs2 : RegIdx) (f3 : BitVec 3) (off : BitVec 12) (s : State),
    s.branchTarget off = s.pc + branchOffset off ∧
    (s.readReg rs1 = s.readReg rs2 → (s.branchTarget off).toNat % 4 = 0 →
      ∃ t, exec (.beq rs1 rs2 f3 off) s = .next t ∧ BranchStep s t (s.branchTarget off)) ∧
    (s.readReg rs1 ≠ s.readReg rs2 → ∃ t, exec (.beq rs1 rs2 f3 off) s = .next t ∧ BranchStep s t (s.pc + 4#32)) ∧
    (s.readReg rs1 = s.readReg rs2 → (s.branchTarget off).toNat % 4 ≠ 0 →
      ∃ t, exec (.beq rs1 rs2 f3 off) s = .next t ∧ ErrorStep s t .branchTargetMisaligned)

/-- O48. A taken branch raises BRANCH_TARGET_MISALIGNED exactly when instr[8] is 1 (R152, R165).
The spec states this as its own decision D14 (92_eei_decisions.md). -/
def Obligations.TakenBranchRaisesIffBit8 : Prop :=
  ∀ (s : State) (w : Word) (i : Instr), s.status = .running → s.fetch = some w → decode s.cfg.strict w = .ok i →
    opcode w = 0b1100011#7 → s.readReg (rs1Field w) = s.readReg (rs2Field w) →
    ∃ t, step s = .next t ∧
      if w.getLsbD 8 then ErrorStep s t .branchTargetMisaligned else BranchStep s t (s.pc + immGen w)

/-- O49. LW and SW at a misaligned address raise MEM_MISALIGNED, at an aligned one past the end MEM_OUT_OF_RANGE (R163, R164).
The spec states this as its own decisions D10, D11 (92_eei_decisions.md). -/
def Obligations.BadDataAddressRaises : Prop :=
  ∀ (s : State) (w : Word) (i : Instr), s.status = .running → s.fetch = some w → decode s.cfg.strict w = .ok i →
    (opcode w = 0b0000011#7 ∨ opcode w = 0b0100011#7) →
    ((s.readReg (rs1Field w) + immGen w).toNat % 4 ≠ 0 →
      ∃ t, step s = .next t ∧ ErrorStep s t .memMisaligned) ∧
    ((s.readReg (rs1Field w) + immGen w).toNat % 4 = 0 →
      (s.cfg.dmemSize ≤ (s.readReg (rs1Field w) + immGen w).toNat ∨
        (s.cfg.wf ∧ (s.readReg (rs1Field w) + immGen w).getLsbD 31 = true)) →
      ∃ t, step s = .next t ∧ ErrorStep s t .memOutOfRange)

/-- O50. A load returns what the last store to its address stored, from the very next step and after any steps that store elsewhere (R143). -/
def Obligations.StoreThenLoad : Prop :=
  (∀ (s : State) (rs1 rs2 : RegIdx) (f3 : BitVec 3) (imm : BitVec 12), s.dmem.wf →
    s.accessError (s.dataAddress rs1 imm) = none →
    ∃ t, exec (.sw rs1 rs2 f3 imm) s = .next t ∧ t.loadWord (s.dataAddress rs1 imm) = s.readReg rs2 ∧
      (∀ a : Word, a.toNat % 4 = 0 → a ≠ s.dataAddress rs1 imm → t.loadWord a = s.loadWord a) ∧
      ∀ (k : Nat) (u : State), core.run k t = .next u → NoStoreDuring k t (s.dataAddress rs1 imm) →
        ∀ (rd base : RegIdx) (f3' : BitVec 3) (imm' : BitVec 12),
          u.dataAddress base imm' = s.dataAddress rs1 imm →
          ∃ v, exec (.lw rd base f3' imm') u = .next v ∧
            v.readReg rd = if rd = 0#5 then 0#32 else s.readReg rs2) ∧
  ∀ (s t : State) (a : Word) (k : Nat), s.dmem.wf → a.toNat % 4 = 0 → core.run k s = .next t →
    NoStoreDuring k s a → t.loadWord a = s.loadWord a

/-- O51. No program can tell the byte order: runs under either order stay the same word for word (R36, R37).
The spec states this as its own decision D9 (92_eei_decisions.md). -/
def Obligations.ByteOrderIsUnobservable : Prop :=
  (∀ s t s' : State, s.dmem.wf → t.dmem.wf → SameButOrder s t → step s = .next s' →
    ∃ t', step t = .next t' ∧ SameButOrder s' t') ∧
  ∀ (c : Config) (o : ByteOrder), SameButOrder (State.resetWith c) (State.resetWith { c with byteOrder := o })

/-- O52. No instruction lets a program read the pc: registers and memory come out the same at any pc (R154). -/
def Obligations.PcIsNotReadable : Prop :=
  ∀ (i : Instr) (s : State) (p : Word), ∃ t t', exec i s = .next t ∧ exec i { s with pc := p } = .next t' ∧
    t'.regs = t.regs ∧ t'.dmem = t.dmem

/-- O53. The host's dump shows a word's bytes in DMEM_BYTE_ORDER (R36, R202).
The spec states this as its own decision D9 (92_eei_decisions.md).
Note: the model holds the data memory as bytes, log entry 3. -/
def Obligations.DumpShowsBytesInOrder : Prop :=
  ∀ (s : State) (addr : Word) (k : Nat), addr.toNat % 4 = 0 → addr.toNat + 4 ≤ s.cfg.dmemSize → k < 4 →
    s.dumpByte (addr.toNat + k) = some (match s.cfg.byteOrder with
      | .little => (s.loadWord addr).extractLsb' (8 * k) 8
      | .big => (s.loadWord addr).extractLsb' (24 - 8 * k) 8)

/-- O54. Advance one cycle returns true exactly while RUNNING; END and ERROR are told apart by the latch (R99, R107).
The spec states this as its own decision D15 (92_eei_decisions.md).
Note: the model reads the result off the state, log entry 10. -/
def Obligations.AdvanceReportsTheResult : Prop :=
  (∀ s : State, ∃ t, step s = .next t ∧ advance s = some (t, decide (t.status = .running))) ∧
  ∀ s : State, (s.result = .continues ↔ s.status = .running) ∧
    (s.result = .ends ↔ s.status = .halted ∧ s.fault = none) ∧
    ∀ c, s.result = .error c ↔ s.status = .halted ∧ s.fault = some c

/-- O55. The fault codes are those of the table, distinct, and 6 and 7 never appear (R167).
The spec states this as its own decision D16 (92_eei_decisions.md). -/
def Obligations.CauseCodesAreDistinct : Prop :=
  (∀ f f' : Option Cause, faultCode f = faultCode f' → f = f') ∧ (∀ f, (faultCode f).toNat ≤ 5) ∧
    faultCode none = 0#3 ∧ faultCode (some .unsupportedOpcode) = 1#3 ∧ faultCode (some .unsupportedFunct) = 2#3 ∧
    faultCode (some .memMisaligned) = 3#3 ∧ faultCode (some .memOutOfRange) = 4#3 ∧
    faultCode (some .branchTargetMisaligned) = 5#3

/-- O56. An image of 32-character lines gives its words in order; blank lines are skipped, malformed lines fatal (R204, 70_reset_and_hazards.md section 6).
Note: what is blank is the model's choice, log entry 14. -/
def Obligations.ProgramImageReadsBack : Prop :=
  (∀ ws : List Word, parseImage (ws.map imageLine) = some ws) ∧
  (∀ (before after : List (List Char)) (line : List Char), blankLine line = true →
    parseImage (before ++ line :: after) = parseImage (before ++ after)) ∧
  ∀ (before after : List (List Char)) (line : List Char), blankLine line = false →
    (line.length ≠ 32 ∨ ∃ c ∈ line, c ≠ '0' ∧ c ≠ '1') → parseImage (before ++ line :: after) = none

/-- O57. A word placed at the pc is what the next step runs; registers, data memory, the other words and parameters stay (R18, R38, R203).
Note: the placing of a word is the model's choice, log entry 11. -/
def Obligations.PlacedWordIsRunNext : Prop :=
  ∀ (s : State) (w : Word) (i : Instr), decode s.cfg.strict w = .ok i →
    step (s.placeWord w) = exec i (s.placeWord w) ∧ (s.placeWord w).status = .running ∧
      (s.placeWord w).fault = (if s.status = .running then s.fault else none) ∧ (s.placeWord w).regs = s.regs ∧
      (s.placeWord w).dmem = s.dmem ∧ (s.placeWord w).pc.toNat = s.pc.toNat / 4 * 4 ∧
      { (s.placeWord w).cfg with imem := s.cfg.imem } = s.cfg ∧
      ∀ k, (s.placeWord w).cfg.imem[k]? = if k = s.pc.toNat / 4 then some w
        else if k < s.cfg.imem.length then s.cfg.imem[k]?
        else if k < s.pc.toNat / 4 then some 0#32 else none
end

