-- ==== Sys2Proof/Laws/Decode.lean ====
section
/-!
SUPPORT. Fields and formats: what a word built by a format reads back as, that a word is rebuilt from its fields, what a table mask
keeps of a word.
-/

namespace Sys2Proof

/-- Concatenation as arithmetic. -/
theorem append_toNat {m n : Nat} (x : BitVec m) (y : BitVec n) :
    (x ++ y).toNat = x.toNat * 2 ^ n + y.toNat := by
  rw [BitVec.toNat_append, ← Nat.shiftLeft_add_eq_or_of_lt y.isLt, Nat.shiftLeft_eq]

section Formats

variable (f7 op : BitVec 7) (rs2 rs1 rd : RegIdx) (f3 : BitVec 3) (imm : BitVec 12)

theorem formatR_toNat : (formatR f7 rs2 rs1 f3 rd op).toNat =
    ((((f7.toNat * 2 ^ 5 + rs2.toNat) * 2 ^ 5 + rs1.toNat) * 2 ^ 3 + f3.toNat) * 2 ^ 5 + rd.toNat) * 2 ^ 7
      + op.toNat := by
  simp only [formatR, append_toNat]

@[simp] theorem opcode_formatR : opcode (formatR f7 rs2 rs1 f3 rd op) = op := by
  apply BitVec.eq_of_toNat_eq
  have := op.isLt
  simp only [opcode, BitVec.extractLsb'_toNat, Nat.shiftRight_eq_div_pow, formatR_toNat]
  omega

@[simp] theorem rdField_formatR : rdField (formatR f7 rs2 rs1 f3 rd op) = rd := by
  apply BitVec.eq_of_toNat_eq
  have := op.isLt
  have := rd.isLt
  simp only [rdField, BitVec.extractLsb'_toNat, Nat.shiftRight_eq_div_pow, formatR_toNat]
  omega

@[simp] theorem funct3_formatR : funct3 (formatR f7 rs2 rs1 f3 rd op) = f3 := by
  apply BitVec.eq_of_toNat_eq
  have := op.isLt
  have := rd.isLt
  have := f3.isLt
  simp only [funct3, BitVec.extractLsb'_toNat, Nat.shiftRight_eq_div_pow, formatR_toNat]
  omega

@[simp] theorem rs1Field_formatR : rs1Field (formatR f7 rs2 rs1 f3 rd op) = rs1 := by
  apply BitVec.eq_of_toNat_eq
  have := op.isLt
  have := rd.isLt
  have := f3.isLt
  have := rs1.isLt
  simp only [rs1Field, BitVec.extractLsb'_toNat, Nat.shiftRight_eq_div_pow, formatR_toNat]
  omega

@[simp] theorem rs2Field_formatR : rs2Field (formatR f7 rs2 rs1 f3 rd op) = rs2 := by
  apply BitVec.eq_of_toNat_eq
  have := op.isLt
  have := rd.isLt
  have := f3.isLt
  have := rs1.isLt
  have := rs2.isLt
  simp only [rs2Field, BitVec.extractLsb'_toNat, Nat.shiftRight_eq_div_pow, formatR_toNat]
  omega

@[simp] theorem funct7_formatR : funct7 (formatR f7 rs2 rs1 f3 rd op) = f7 := by
  apply BitVec.eq_of_toNat_eq
  have := op.isLt
  have := rd.isLt
  have := f3.isLt
  have := rs1.isLt
  have := rs2.isLt
  have := f7.isLt
  simp only [funct7, BitVec.extractLsb'_toNat, Nat.shiftRight_eq_div_pow, formatR_toNat]
  omega

/-- A word is its fields, in the R layout. -/
theorem formatR_fields (w : Word) :
    formatR (funct7 w) (rs2Field w) (rs1Field w) (funct3 w) (rdField w) (opcode w) = w := by
  apply BitVec.eq_of_toNat_eq
  have := w.isLt
  simp only [formatR_toNat, funct7, rs2Field, rs1Field, funct3, rdField, opcode, BitVec.extractLsb'_toNat,
    Nat.shiftRight_eq_div_pow]
  omega

/-- The I group is `funct7 ∥ rs2`. -/
theorem iGroup_eq_fields (w : Word) : iGroup w = funct7 w ++ rs2Field w := by
  apply BitVec.eq_of_toNat_eq
  have := w.isLt
  simp only [append_toNat, iGroup, funct7, rs2Field, BitVec.extractLsb'_toNat, Nat.shiftRight_eq_div_pow]
  omega

/-- The S group is `funct7 ∥ rd`. -/
theorem sGroup_eq_fields (w : Word) : sGroup w = funct7 w ++ rdField w := rfl

/-- The B group in terms of the R fields. -/
theorem bGroup_eq_fields (w : Word) :
    bGroup w = (funct7 w).extractLsb' 6 1 ++ (rdField w).extractLsb' 0 1 ++ (funct7 w).extractLsb' 0 6
      ++ (rdField w).extractLsb' 1 4 := by
  apply BitVec.eq_of_getLsbD_eq
  intro i hi
  simp only [bGroup, funct7, rdField, BitVec.getLsbD_append, BitVec.getLsbD_extractLsb']
  interval_cases i <;> simp

@[simp] theorem iGroup_formatI : iGroup (formatI imm rs1 f3 rd op) = imm := by
  rw [iGroup_eq_fields, formatI, funct7_formatR, rs2Field_formatR]
  apply BitVec.eq_of_toNat_eq
  have := imm.isLt
  simp only [append_toNat, BitVec.extractLsb'_toNat, Nat.shiftRight_eq_div_pow]
  omega

@[simp] theorem sGroup_formatS : sGroup (formatS imm rs2 rs1 f3 op) = imm := by
  rw [sGroup_eq_fields, formatS, funct7_formatR, rdField_formatR]
  apply BitVec.eq_of_toNat_eq
  have := imm.isLt
  simp only [append_toNat, BitVec.extractLsb'_toNat, Nat.shiftRight_eq_div_pow]
  omega

@[simp] theorem bGroup_formatB : bGroup (formatB imm rs2 rs1 f3 op) = imm := by
  rw [bGroup_eq_fields, formatB, funct7_formatR, rdField_formatR]
  apply BitVec.eq_of_getLsbD_eq
  intro i hi
  simp only [BitVec.getLsbD_append, BitVec.getLsbD_extractLsb']
  interval_cases i <;> simp

/-- A word is rebuilt from its I fields. -/
theorem formatI_fields (w : Word) : formatI (iGroup w) (rs1Field w) (funct3 w) (rdField w) (opcode w) = w := by
  have h7 : (iGroup w).extractLsb' 5 7 = funct7 w := by
    apply BitVec.eq_of_toNat_eq
    have := w.isLt
    simp only [iGroup, funct7, BitVec.extractLsb'_toNat, Nat.shiftRight_eq_div_pow]
    omega
  have h5 : (iGroup w).extractLsb' 0 5 = rs2Field w := by
    apply BitVec.eq_of_toNat_eq
    have := w.isLt
    simp only [iGroup, rs2Field, BitVec.extractLsb'_toNat, Nat.shiftRight_eq_div_pow]
    omega
  rw [formatI, h7, h5, formatR_fields]

/-- A word is rebuilt from its S fields. -/
theorem formatS_fields (w : Word) : formatS (sGroup w) (rs2Field w) (rs1Field w) (funct3 w) (opcode w) = w := by
  have h7 : (sGroup w).extractLsb' 5 7 = funct7 w := by
    apply BitVec.eq_of_toNat_eq
    have := w.isLt
    simp only [sGroup, append_toNat, funct7, BitVec.extractLsb'_toNat, Nat.shiftRight_eq_div_pow]
    omega
  have h5 : (sGroup w).extractLsb' 0 5 = rdField w := by
    apply BitVec.eq_of_toNat_eq
    have := w.isLt
    simp only [sGroup, append_toNat, rdField, BitVec.extractLsb'_toNat, Nat.shiftRight_eq_div_pow]
    omega
  rw [formatS, h7, h5, formatR_fields]

/-- A word is rebuilt from its B fields. -/
theorem formatB_fields (w : Word) : formatB (bGroup w) (rs2Field w) (rs1Field w) (funct3 w) (opcode w) = w := by
  have h7 : (bGroup w).extractLsb' 11 1 ++ (bGroup w).extractLsb' 4 6 = funct7 w := by
    apply BitVec.eq_of_getLsbD_eq
    intro i hi
    simp only [bGroup, funct7, BitVec.getLsbD_append, BitVec.getLsbD_extractLsb']
    interval_cases i <;> simp
  have h5 : (bGroup w).extractLsb' 0 4 ++ (bGroup w).extractLsb' 10 1 = rdField w := by
    apply BitVec.eq_of_getLsbD_eq
    intro i hi
    simp only [bGroup, rdField, BitVec.getLsbD_append, BitVec.getLsbD_extractLsb']
    interval_cases i <;> simp
  rw [formatB, h7, h5, formatR_fields]

@[simp] theorem opcode_formatI : opcode (formatI imm rs1 f3 rd op) = op := opcode_formatR ..
@[simp] theorem funct3_formatI : funct3 (formatI imm rs1 f3 rd op) = f3 := funct3_formatR ..
@[simp] theorem rs1Field_formatI : rs1Field (formatI imm rs1 f3 rd op) = rs1 := rs1Field_formatR ..
@[simp] theorem rdField_formatI : rdField (formatI imm rs1 f3 rd op) = rd := rdField_formatR ..
@[simp] theorem opcode_formatS : opcode (formatS imm rs2 rs1 f3 op) = op := opcode_formatR ..
@[simp] theorem funct3_formatS : funct3 (formatS imm rs2 rs1 f3 op) = f3 := funct3_formatR ..
@[simp] theorem rs1Field_formatS : rs1Field (formatS imm rs2 rs1 f3 op) = rs1 := rs1Field_formatR ..
@[simp] theorem rs2Field_formatS : rs2Field (formatS imm rs2 rs1 f3 op) = rs2 := rs2Field_formatR ..
@[simp] theorem opcode_formatB : opcode (formatB imm rs2 rs1 f3 op) = op := opcode_formatR ..
@[simp] theorem funct3_formatB : funct3 (formatB imm rs2 rs1 f3 op) = f3 := funct3_formatR ..
@[simp] theorem rs1Field_formatB : rs1Field (formatB imm rs2 rs1 f3 op) = rs1 := rs1Field_formatR ..
@[simp] theorem rs2Field_formatB : rs2Field (formatB imm rs2 rs1 f3 op) = rs2 := rs2Field_formatR ..

end Formats

/-! ## The three masks of the opcode table -/

/-- The mask of the LOAD, STORE and BRANCH rows keeps the opcode. -/
theorem mask_opcode (w : Word) : w &&& 0x0000007F = formatR 0 0 0 0 0 (opcode w) := by
  apply BitVec.eq_of_getLsbD_eq
  intro i hi
  simp only [BitVec.getLsbD_and, formatR, BitVec.getLsbD_append, opcode, BitVec.getLsbD_extractLsb']
  interval_cases i <;> simp

/-- The mask of the OP-IMM rows keeps the opcode and `funct3`. -/
theorem mask_opcode_funct3 (w : Word) : w &&& 0x0000707F = formatR 0 0 0 (funct3 w) 0 (opcode w) := by
  apply BitVec.eq_of_getLsbD_eq
  intro i hi
  simp only [BitVec.getLsbD_and, formatR, BitVec.getLsbD_append, opcode, funct3, BitVec.getLsbD_extractLsb']
  interval_cases i <;> simp

/-- The mask of the OP rows keeps the opcode, `funct3` and `funct7`. -/
theorem mask_opcode_functs (w : Word) :
    w &&& 0xFE00707F = formatR (funct7 w) 0 0 (funct3 w) 0 (opcode w) := by
  apply BitVec.eq_of_getLsbD_eq
  intro i hi
  simp only [BitVec.getLsbD_and, formatR, BitVec.getLsbD_append, opcode, funct3, funct7,
    BitVec.getLsbD_extractLsb']
  interval_cases i <;> simp

/-- Two words of the R layout are equal exactly when their fields are. -/
theorem formatR_inj {a a' : BitVec 7} {b b' c c' : RegIdx} {d d' : BitVec 3} {e e' : RegIdx} {f f' : BitVec 7} :
    formatR a b c d e f = formatR a' b' c' d' e' f' ↔ a = a' ∧ b = b' ∧ c = c' ∧ d = d' ∧ e = e' ∧ f = f' := by
  constructor
  · intro h
    have h7 := congrArg funct7 h
    have h2 := congrArg rs2Field h
    have h1 := congrArg rs1Field h
    have h3 := congrArg funct3 h
    have hd := congrArg rdField h
    have ho := congrArg opcode h
    simp only [funct7_formatR, rs2Field_formatR, rs1Field_formatR, funct3_formatR, rdField_formatR,
      opcode_formatR] at h7 h2 h1 h3 hd ho
    exact ⟨h7, h2, h1, h3, hd, ho⟩
  · rintro ⟨rfl, rfl, rfl, rfl, rfl, rfl⟩
    rfl

/-! ## What the decoder answers -/

/-- The decoder answers an instruction exactly when the word decodes by class and the instruction is well formed. -/
theorem decode_ok_iff {strict : Bool} {w : Word} {i : Instr} :
    decode strict w = .ok i ↔ decodeLoose w = .ok i ∧ i.wellFormed strict = true := by
  unfold decode
  cases h : decodeLoose w with
  | error c => simp
  | ok j =>
    by_cases hw : j.wellFormed strict = true
    · simp only [hw, if_true]
      constructor
      · intro e
        cases e
        exact ⟨rfl, hw⟩
      · rintro ⟨e, -⟩
        exact e
    · simp only [hw]
      constructor
      · intro e
        cases e
      · rintro ⟨e, h'⟩
        cases e
        exact absurd h' hw

/-- Decoding by class, class by class. -/
theorem decodeLoose_cases (w : Word) :
    (opcode w = 0b0110011#7 ∧ decodeLoose w = decodeOp w) ∨
      (opcode w = 0b0010011#7 ∧ decodeLoose w = .ok (decodeOpImm w)) ∨
      (opcode w = 0b0000011#7 ∧ decodeLoose w = .ok (.lw (rdField w) (rs1Field w) (funct3 w) (iGroup w))) ∨
      (opcode w = 0b0100011#7 ∧ decodeLoose w = .ok (.sw (rs1Field w) (rs2Field w) (funct3 w) (sGroup w))) ∨
      (opcode w = 0b1100011#7 ∧ decodeLoose w = .ok (.beq (rs1Field w) (rs2Field w) (funct3 w) (bGroup w))) ∨
      ((opcode w ≠ 0b0110011#7 ∧ opcode w ≠ 0b0010011#7 ∧ opcode w ≠ 0b0000011#7 ∧ opcode w ≠ 0b0100011#7 ∧
        opcode w ≠ 0b1100011#7) ∧ decodeLoose w = .error .unsupportedOpcode) := by
  unfold decodeLoose
  split <;> simp_all

/-- The high seven bits of the I group are `funct7`. -/
theorem iGroup_high (w : Word) : (iGroup w).extractLsb' 5 7 = funct7 w := by
  apply BitVec.eq_of_toNat_eq
  have := w.isLt
  simp only [iGroup, funct7, BitVec.extractLsb'_toNat, Nat.shiftRight_eq_div_pow]
  omega

/-- With `STRICT_RV32I` = false every instruction is well formed. -/
@[simp] theorem wellFormed_false (i : Instr) : i.wellFormed false = true := rfl

/-- With `STRICT_RV32I` = false the decoder is the decoding by class. -/
theorem decode_false (w : Word) : decode false w = decodeLoose w := by
  unfold decode
  cases decodeLoose w <;> rfl

end Sys2Proof
end

