-- ==== Sys2Proof/Laws/Memory.lean ====
section
/-!
SUPPORT. The data memory: reading after writing, and that every memory operation keeps the canonical form and the bound.
-/

namespace Sys2Proof.Machine

/-- What is left of a canonical memory without its first entry is canonical. -/
theorem Memory.wf_tail {c : Host.Cell} {m : Memory} (h : Memory.wf (c :: m)) : m.wf :=
  ⟨(List.pairwise_cons.mp h.1).2, fun d hd => h.2 d (List.mem_cons_of_mem _ hd)⟩

/-- Below every listed address a memory reads as unlisted. -/
theorem Memory.readByte_lt {m : Memory} {a : Nat} (h : ∀ c ∈ m, a < c.1) : m.readByte a = Memory.unlisted := by
  cases m with
  | nil => rfl
  | cons c m =>
    have := h c (List.mem_cons_self ..)
    simp [Memory.readByte, this, Nat.ne_of_lt this]

/-- Reading a byte after writing one, in a canonical memory. -/
theorem Memory.readByte_writeByte {m : Memory} (hm : m.wf) (a b : Nat) (v : Byte) :
    (m.writeByte a v).readByte b = if b = a then v else m.readByte b := by
  induction m with
  | nil =>
    by_cases hv : v = Memory.unlisted
    · simp [Memory.writeByte, Memory.readByte, hv]
    · by_cases hb : b = a <;> simp [Memory.writeByte, Memory.readByte, hv, hb]
  | cons c m ih =>
    obtain ⟨k, x⟩ := c
    have hrest : ∀ d ∈ m, k < d.1 := (List.pairwise_cons.mp hm.1).1
    have ih := ih (Memory.wf_tail hm)
    -- below the first address the rest of the memory lists nothing either
    have hbelow : ∀ e, e < k → Memory.readByte ((k, x) :: m) e = Memory.unlisted := fun e he =>
      Memory.readByte_lt fun d hd => by
        rcases List.mem_cons.mp hd with rfl | hd
        · exact he
        · exact Nat.lt_trans he (hrest d hd)
    by_cases hb : b = a
    · subst hb
      rw [if_pos rfl, Memory.writeByte]
      by_cases hlt : b < k
      · by_cases hv : v = Memory.unlisted
        · rw [if_pos hlt, if_pos hv, hbelow b hlt, hv]
        · rw [if_pos hlt, if_neg hv, Memory.readByte, if_pos rfl]
      rw [if_neg hlt]
      by_cases heq : b = k
      · subst heq
        by_cases hv : v = Memory.unlisted
        · rw [if_pos rfl, if_pos hv, hv, Memory.readByte_lt hrest]
        · rw [if_pos rfl, if_neg hv, Memory.readByte, if_pos rfl]
      · rw [if_neg heq, Memory.readByte, if_neg heq, if_neg hlt, ih, if_pos rfl]
    · rw [if_neg hb] at ih
      rw [if_neg hb, Memory.writeByte]
      by_cases hlt : a < k
      · by_cases hv : v = Memory.unlisted
        · rw [if_pos hlt, if_pos hv]
        · rw [if_pos hlt, if_neg hv, Memory.readByte, if_neg hb]
          by_cases hba : b < a
          · rw [if_pos hba, hbelow b (Nat.lt_trans hba hlt)]
          · rw [if_neg hba]
      rw [if_neg hlt]
      by_cases heq : a = k
      · subst heq
        by_cases hv : v = Memory.unlisted
        · rw [if_pos rfl, if_pos hv, Memory.readByte, if_neg hb]
          by_cases hba : b < a
          · rw [if_pos hba, Memory.readByte_lt fun d hd => Nat.lt_trans hba (hrest d hd)]
          · rw [if_neg hba]
        · simp only [if_true, if_neg hv, Memory.readByte, if_neg hb]
      · simp only [if_neg heq, Memory.readByte, ih]

/-- An entry of a memory after a write is the written one or an old one. -/
theorem Memory.mem_writeByte {m : Memory} {a : Nat} {v : Byte} {c : Host.Cell} (h : c ∈ m.writeByte a v) :
    (c = (a, v) ∧ v ≠ Memory.unlisted) ∨ c ∈ m := by
  induction m with
  | nil =>
    by_cases hv : v = Memory.unlisted
    · simp [Memory.writeByte, hv] at h
    · simp [Memory.writeByte, hv] at h
      exact .inl ⟨h, hv⟩
  | cons d m ih =>
    obtain ⟨k, x⟩ := d
    simp only [Memory.writeByte] at h
    split_ifs at h with h1 h2 h3 h4
    · exact .inr h
    · rcases List.mem_cons.mp h with h | h
      · exact .inl ⟨h, h2⟩
      · exact .inr h
    · exact .inr (List.mem_cons_of_mem _ h)
    · rcases List.mem_cons.mp h with h | h
      · exact .inl ⟨h, h4⟩
      · exact .inr (List.mem_cons_of_mem _ h)
    · rcases List.mem_cons.mp h with h | h
      · exact .inr (h ▸ List.mem_cons_self ..)
      · exact (ih h).imp_right (List.mem_cons_of_mem _)

/-- Writing a byte keeps the canonical form. -/
theorem Memory.wf_writeByte {m : Memory} (hm : m.wf) (a : Nat) (v : Byte) : (m.writeByte a v).wf := by
  refine ⟨?_, fun c hc => ?_⟩
  · induction m with
    | nil => by_cases hv : v = Memory.unlisted <;> simp [Memory.writeByte, hv]
    | cons d m ih =>
      obtain ⟨k, x⟩ := d
      have hrest : ∀ d ∈ m, k < d.1 := (List.pairwise_cons.mp hm.1).1
      have ih := ih (Memory.wf_tail hm)
      simp only [Memory.writeByte]
      split_ifs with h1 h2 h3 h4
      · exact hm.1
      · refine List.pairwise_cons.mpr ⟨fun d hd => ?_, hm.1⟩
        rcases List.mem_cons.mp hd with rfl | hd
        · exact h1
        · exact Nat.lt_trans h1 (hrest d hd)
      · exact (Memory.wf_tail hm).1
      · exact List.pairwise_cons.mpr ⟨fun d hd => h3 ▸ hrest d hd, (Memory.wf_tail hm).1⟩
      · refine List.pairwise_cons.mpr ⟨fun d hd => ?_, ih⟩
        rcases Memory.mem_writeByte hd with ⟨rfl, -⟩ | hd
        · simp only
          omega
        · exact hrest d hd
  · rcases Memory.mem_writeByte hc with ⟨rfl, hv⟩ | hc
    · exact hv
    · exact hm.2 c hc

/-- Writing a byte inside the data space lists nothing outside it. -/
theorem Memory.within_writeByte {m : Memory} {n : Nat} (hm : m.within n) {a : Nat} (ha : a < n) (v : Byte) :
    (m.writeByte a v).within n := fun c hc => by
  rcases Memory.mem_writeByte hc with ⟨rfl, -⟩ | hc
  · exact ha
  · exact hm c hc

/-- Writing a word keeps the canonical form. -/
theorem Memory.wf_writeWord {m : Memory} (hm : m.wf) (o : ByteOrder) (a : Nat) (v : Word) :
    (m.writeWord o a v).wf :=
  Memory.wf_writeByte (Memory.wf_writeByte (Memory.wf_writeByte (Memory.wf_writeByte hm _ _) _ _) _ _) _ _

/-- Writing a word inside the data space lists nothing outside it. -/
theorem Memory.within_writeWord {m : Memory} {n : Nat} (hm : m.within n) (o : ByteOrder) {a : Nat} (ha : a + 3 < n)
    (v : Word) : (m.writeWord o a v).within n :=
  Memory.within_writeByte (Memory.within_writeByte (Memory.within_writeByte (Memory.within_writeByte hm
    (by omega) _) (by omega) _) (by omega) _) ha _

/-- A byte after a word store: inside the word the byte the order puts there, outside it what it was. -/
theorem Memory.readByte_writeWord {m : Memory} (hm : m.wf) (o : ByteOrder) (a b : Nat) (v : Word) :
    (m.writeWord o a v).readByte b = if a ≤ b ∧ b < a + 4 then byteAt o v (b - a) else m.readByte b := by
  have h0 := Memory.wf_writeByte hm a (byteAt o v 0)
  have h1 := Memory.wf_writeByte h0 (a + 1) (byteAt o v 1)
  have h2 := Memory.wf_writeByte h1 (a + 2) (byteAt o v 2)
  rw [Memory.writeWord, Memory.readByte_writeByte h2, Memory.readByte_writeByte h1,
    Memory.readByte_writeByte h0, Memory.readByte_writeByte hm]
  by_cases e3 : b = a + 3
  · subst e3; simp
  by_cases e2 : b = a + 2
  · subst e2; simp
  by_cases e1 : b = a + 1
  · subst e1; simp
  by_cases e0 : b = a
  · subst e0; simp
  have : ¬ (a ≤ b ∧ b < a + 4) := by omega
  simp [e0, e1, e2, e3, this]

/-- A word is the word of its four bytes, in either order. -/
theorem wordOf_byteAt (o : ByteOrder) (v : Word) :
    wordOf o (byteAt o v 0) (byteAt o v 1) (byteAt o v 2) (byteAt o v 3) = v := by
  apply BitVec.eq_of_toNat_eq
  have := v.isLt
  cases o <;>
  · simp only [wordOf, byteAt, append_toNat, BitVec.extractLsb'_toNat, Nat.shiftRight_eq_div_pow]
    omega

/-- A word read where one was stored is the word stored. -/
theorem Memory.readWord_writeWord_same {m : Memory} (hm : m.wf) (o : ByteOrder) (a : Nat) (v : Word) :
    (m.writeWord o a v).readWord o a = v := by
  simp only [Memory.readWord, Memory.readByte_writeWord hm]
  simp [wordOf_byteAt]

/-- A word read clear of the stored one is what it was. -/
theorem Memory.readWord_writeWord_other {m : Memory} (hm : m.wf) (o : ByteOrder) {a b : Nat} (v : Word)
    (h : b + 4 ≤ a ∨ a + 4 ≤ b) : (m.writeWord o a v).readWord o b = m.readWord o b := by
  simp only [Memory.readWord, Memory.readByte_writeWord hm]
  repeat rw [if_neg (by omega)]

/-- Storing a list of words keeps the canonical form. -/
theorem Memory.wf_writeWords {m : Memory} (hm : m.wf) (o : ByteOrder) (a : Nat) (vs : List Word) :
    (m.writeWords o a vs).wf := by
  induction vs generalizing m a with
  | nil => exact hm
  | cons v vs ih => exact ih (Memory.wf_writeWord hm o a v) (a + 4)

/-- Storing a list of words inside the data space lists nothing outside it. -/
theorem Memory.within_writeWords {m : Memory} {n : Nat} (hm : m.within n) (o : ByteOrder) (a : Nat) (vs : List Word)
    (ha : a + 4 * vs.length ≤ n) : (m.writeWords o a vs).within n := by
  induction vs generalizing m a with
  | nil => exact hm
  | cons v vs ih =>
    simp only [List.length_cons] at ha
    exact ih (Memory.within_writeWord hm o (by omega) v) (a + 4) (by omega)

/-- A word read at or past the end of the stored list, or before its start, is what it was. -/
theorem Memory.readWord_writeWords_other {m : Memory} (hm : m.wf) (o : ByteOrder) (a b : Nat) (vs : List Word)
    (h : b + 4 ≤ a ∨ a + 4 * vs.length ≤ b) : (m.writeWords o a vs).readWord o b = m.readWord o b := by
  induction vs generalizing m a with
  | nil => rfl
  | cons v vs ih =>
    simp only [List.length_cons] at h
    rw [Memory.writeWords, ih (Memory.wf_writeWord hm o a v) (a + 4) (by omega)]
    exact Memory.readWord_writeWord_other hm o v (by omega)

/-- Word w of a stored list, read back. -/
theorem Memory.readWord_writeWords {m : Memory} (hm : m.wf) (o : ByteOrder) (a : Nat) (vs : List Word) (w : Nat)
    (hw : w < vs.length) : (m.writeWords o a vs).readWord o (a + 4 * w) = vs[w] := by
  induction vs generalizing m a w with
  | nil => simp at hw
  | cons v vs ih =>
    have hv := Memory.wf_writeWord hm o a v
    cases w with
    | zero =>
      rw [Memory.writeWords, Memory.readWord_writeWords_other hv o _ _ _ (by omega)]
      exact Memory.readWord_writeWord_same hm o a v
    | succ w =>
      have hw' : w < vs.length := by simpa using hw
      have := ih hv (a + 4) w hw'
      rw [Memory.writeWords, show a + 4 * (w + 1) = a + 4 + 4 * w by omega, this]
      rfl

/-- The empty memory is canonical. -/
theorem Memory.wf_nil : Memory.wf [] := ⟨List.Pairwise.nil, fun c hc => by cases hc⟩

/-- The memory after reset is canonical. -/
theorem initialMemory_wf (c : Config) : (initialMemory c).wf := Memory.wf_writeWords Memory.wf_nil ..

/-- The memory after reset lies inside the data space of an admitted configuration. -/
theorem initialMemory_within (c : Config) (h : c.wf) : (initialMemory c).within c.dmemSize := by
  obtain ⟨-, h4, -, -, hl⟩ := h
  exact Memory.within_writeWords (fun c hc => by cases hc) _ 0 _ (by omega)

/-- A memory with nothing listed reads as zero words. -/
theorem Memory.readWord_nil (o : ByteOrder) (a : Nat) : Memory.readWord o [] a = 0#32 := by
  simp only [Memory.readWord, Memory.readByte]
  cases o <;> decide

end Sys2Proof.Machine
end

