-- ==== Sys2Proof/Laws/State.lean ====
section
/-!
SUPPORT. One lemma per field of `State` per named update.
-/

namespace Sys2Proof.Machine

section Updates

variable (s : State) (i : RegIdx) (v a : Word) (c : Cause) (k : Config)

@[simp] theorem writeReg_cfg : (s.writeReg i v).cfg = s.cfg := rfl
@[simp] theorem writeReg_regs : (s.writeReg i v).regs = s.regs.write true i v := rfl
@[simp] theorem writeReg_pc : (s.writeReg i v).pc = s.pc := rfl
@[simp] theorem writeReg_status : (s.writeReg i v).status = s.status := rfl
@[simp] theorem writeReg_fault : (s.writeReg i v).fault = s.fault := rfl
@[simp] theorem writeReg_dmem : (s.writeReg i v).dmem = s.dmem := rfl

@[simp] theorem storeWord_cfg : (s.storeWord a v).cfg = s.cfg := rfl
@[simp] theorem storeWord_regs : (s.storeWord a v).regs = s.regs := rfl
@[simp] theorem storeWord_pc : (s.storeWord a v).pc = s.pc := rfl
@[simp] theorem storeWord_status : (s.storeWord a v).status = s.status := rfl
@[simp] theorem storeWord_fault : (s.storeWord a v).fault = s.fault := rfl
@[simp] theorem storeWord_dmem :
    (s.storeWord a v).dmem = s.dmem.writeWord s.cfg.byteOrder a.toNat v := rfl

@[simp] theorem advancePc_cfg : s.advancePc.cfg = s.cfg := rfl
@[simp] theorem advancePc_regs : s.advancePc.regs = s.regs := rfl
@[simp] theorem advancePc_pc : s.advancePc.pc = s.pc + 4#32 := rfl
@[simp] theorem advancePc_status : s.advancePc.status = s.status := rfl
@[simp] theorem advancePc_fault : s.advancePc.fault = s.fault := rfl
@[simp] theorem advancePc_dmem : s.advancePc.dmem = s.dmem := rfl

@[simp] theorem jump_cfg : (s.jump a).cfg = s.cfg := rfl
@[simp] theorem jump_regs : (s.jump a).regs = s.regs := rfl
@[simp] theorem jump_pc : (s.jump a).pc = a := rfl
@[simp] theorem jump_status : (s.jump a).status = s.status := rfl
@[simp] theorem jump_fault : (s.jump a).fault = s.fault := rfl
@[simp] theorem jump_dmem : (s.jump a).dmem = s.dmem := rfl

@[simp] theorem raise_cfg : (s.raise c).cfg = s.cfg := rfl
@[simp] theorem raise_regs : (s.raise c).regs = s.regs := rfl
@[simp] theorem raise_pc : (s.raise c).pc = s.pc := rfl
@[simp] theorem raise_status : (s.raise c).status = .halted := rfl
@[simp] theorem raise_fault : (s.raise c).fault = some c := rfl
@[simp] theorem raise_dmem : (s.raise c).dmem = s.dmem := rfl

@[simp] theorem haltClean_cfg : s.haltClean.cfg = s.cfg := rfl
@[simp] theorem haltClean_regs : s.haltClean.regs = s.regs := rfl
@[simp] theorem haltClean_pc : s.haltClean.pc = s.pc := rfl
@[simp] theorem haltClean_status : s.haltClean.status = .halted := rfl
@[simp] theorem haltClean_fault : s.haltClean.fault = s.fault := rfl
@[simp] theorem haltClean_dmem : s.haltClean.dmem = s.dmem := rfl

@[simp] theorem writeBack_cfg : (s.writeBack i v).cfg = s.cfg := rfl
@[simp] theorem writeBack_regs : (s.writeBack i v).regs = s.regs.write true i v := rfl
@[simp] theorem writeBack_pc : (s.writeBack i v).pc = s.pc + 4#32 := rfl
@[simp] theorem writeBack_status : (s.writeBack i v).status = s.status := rfl
@[simp] theorem writeBack_fault : (s.writeBack i v).fault = s.fault := rfl
@[simp] theorem writeBack_dmem : (s.writeBack i v).dmem = s.dmem := rfl

@[simp] theorem resetWith_cfg : (State.resetWith k).cfg = k := rfl
@[simp] theorem resetWith_regs : (State.resetWith k).regs = Vector.replicate 31 0#32 := rfl
@[simp] theorem resetWith_pc : (State.resetWith k).pc = 0#32 := rfl
@[simp] theorem resetWith_status : (State.resetWith k).status = .running := rfl
@[simp] theorem resetWith_fault : (State.resetWith k).fault = none := rfl
@[simp] theorem resetWith_dmem : (State.resetWith k).dmem = initialMemory k := rfl

end Updates

/-! ## Registers -/

@[simp] theorem read_zero (rf : RegFile) : rf.read 0#5 = 0#32 := rfl

/-- Reading after a write: index 0 reads 0, the written index the value, any other what it read before. -/
theorem read_write (rf : RegFile) (i j : RegIdx) (v : Word) :
    (rf.write true i v).read j = if j = 0#5 then 0#32 else if j = i then v else rf.read j := by
  by_cases hj : j = 0#5
  · subst hj
    rfl
  rw [if_neg hj]
  by_cases hi : i = 0#5
  · have hne : j ≠ i := fun h => hj (h.trans hi)
    rw [if_neg hne]
    rw [RegFile.write, if_neg (fun h => h.2 hi)]
  · have hw : rf.write true i v = rf.setIfInBounds (i.toNat - 1) v := by simp [RegFile.write, hi]
    rw [hw]
    simp only [RegFile.read, hj, dite_false]
    have hnat : ∀ k : RegIdx, k ≠ 0#5 → 1 ≤ k.toNat := fun k hk => by
      have : k.toNat ≠ 0 := fun e => hk (BitVec.eq_of_toNat_eq e)
      omega
    have h1 := hnat i hi
    have h2 := hnat j hj
    rw [Vector.getElem_setIfInBounds]
    by_cases hij : j = i
    · simp [hij]
    · have : i.toNat - 1 ≠ j.toNat - 1 := fun e => hij (BitVec.eq_of_toNat_eq (by omega))
      simp [hij, this]

@[simp] theorem readReg_writeReg (s : State) (i j : RegIdx) (v : Word) :
    (s.writeReg i v).readReg j = if j = 0#5 then 0#32 else if j = i then v else s.readReg j :=
  read_write ..

@[simp] theorem readReg_writeBack (s : State) (i j : RegIdx) (v : Word) :
    (s.writeBack i v).readReg j = if j = 0#5 then 0#32 else if j = i then v else s.readReg j :=
  read_write ..

@[simp] theorem readReg_storeWord (s : State) (a v : Word) (j : RegIdx) :
    (s.storeWord a v).readReg j = s.readReg j := rfl
@[simp] theorem readReg_advancePc (s : State) (j : RegIdx) : s.advancePc.readReg j = s.readReg j := rfl
@[simp] theorem readReg_jump (s : State) (a : Word) (j : RegIdx) : (s.jump a).readReg j = s.readReg j := rfl
@[simp] theorem readReg_raise (s : State) (c : Cause) (j : RegIdx) : (s.raise c).readReg j = s.readReg j := rfl
@[simp] theorem readReg_haltClean (s : State) (j : RegIdx) : s.haltClean.readReg j = s.readReg j := rfl

/-- Index 0 reads 0 in every state. -/
@[simp] theorem readReg_zero (s : State) : s.readReg 0#5 = 0#32 := rfl

/-- Every register reads 0 after reset. -/
theorem readReg_resetWith (k : Config) (j : RegIdx) : (State.resetWith k).readReg j = 0#32 := by
  simp [State.readReg, RegFile.read]

end Sys2Proof.Machine
end

