-- ==== Sys2Proof/Laws/Ops.lean ====
section
/-!
SUPPORT. What each shared operation can do: the access check, the memory primitives, the end in an error, the alignment test, the image.
-/

namespace Sys2Proof.Machine

theorem misaligned_iff (a : Word) : misaligned a = true ↔ a.toNat % 4 ≠ 0 := by simp [misaligned]

theorem aligned_iff (a : Word) : misaligned a = false ↔ a.toNat % 4 = 0 := by simp [misaligned]

/-- An access is admitted exactly at an aligned address of the data space. -/
theorem accessError_none_iff (s : State) (a : Word) :
    s.accessError a = none ↔ a.toNat % 4 = 0 ∧ a.toNat < s.cfg.dmemSize := by
  unfold State.accessError
  by_cases h1 : misaligned a = true
  · simp [h1, (misaligned_iff a).mp h1]
  · have h1' := (aligned_iff a).mp (by simpa using h1)
    by_cases h2 : s.cfg.dmemSize ≤ a.toNat
    · simp [h1, h2]
    · simp [h1, h1', h2]
      omega

/-- An access is refused as misaligned exactly at a misaligned address, in range or not. -/
theorem accessError_misaligned_iff (s : State) (a : Word) :
    s.accessError a = some .memMisaligned ↔ a.toNat % 4 ≠ 0 := by
  rw [← misaligned_iff]
  unfold State.accessError
  split_ifs <;> simp_all

/-- An access is refused as out of range exactly at an aligned address at or above DMEM_SIZE. -/
theorem accessError_outOfRange_iff (s : State) (a : Word) :
    s.accessError a = some .memOutOfRange ↔ a.toNat % 4 = 0 ∧ s.cfg.dmemSize ≤ a.toNat := by
  rw [← aligned_iff]
  unfold State.accessError
  split_ifs <;> simp_all

/-- `MemRead` in its two cases. -/
theorem memRead_eq (s : State) (a : Word) :
    (∃ c, s.accessError a = some c ∧ s.memRead a = .error c) ∨
      (s.accessError a = none ∧ s.memRead a = .ok (s.loadWord a)) := by
  unfold State.memRead
  cases h : s.accessError a <;> simp

/-- `MemWrite` in its two cases. -/
theorem memWrite_eq (s : State) (a v : Word) :
    (∃ c, s.accessError a = some c ∧ s.memWrite a v = .error c) ∨
      (s.accessError a = none ∧ s.memWrite a v = .ok (s.storeWord a v)) := by
  unfold State.memWrite
  cases h : s.accessError a <;> simp

@[simp] theorem orRaise_ok (s t : State) : s.orRaise (.ok t) = .next t := rfl
@[simp] theorem orRaise_error (s : State) (c : Cause) : s.orRaise (.error c) = .next (s.raise c) := rfl

/-- The word read right after a store to the same address is the word stored. -/
theorem loadWord_storeWord_same {s : State} (hm : s.dmem.wf) (a v : Word) :
    (s.storeWord a v).loadWord a = v :=
  Memory.readWord_writeWord_same hm ..

/-- A store leaves the word at every other aligned address. -/
theorem loadWord_storeWord_other {s : State} (hm : s.dmem.wf) {a b : Word} (v : Word) (ha : a.toNat % 4 = 0)
    (hb : b.toNat % 4 = 0) (hab : b ≠ a) : (s.storeWord a v).loadWord b = s.loadWord b := by
  refine Memory.readWord_writeWord_other hm _ v ?_
  have : b.toNat ≠ a.toNat := fun e => hab (BitVec.eq_of_toNat_eq e)
  omega

/-- The image with word number k replaced holds that word there. -/
theorem imageWith_get (imem : List Word) (k : Nat) (w : Word) : (imageWith imem k w)[k]? = some w := by
  have : k < (imem ++ List.replicate (k + 1 - imem.length) 0#32).length := by
    simp only [List.length_append, List.length_replicate]
    omega
  simp [imageWith, List.getElem?_set_self this]

/-- After a word is placed at the pc, the next fetch reads it. -/
theorem fetch_placeWord (s : State) (w : Word) : (s.placeWord w).fetch = some w := by
  have hlt := s.pc.isLt
  have hpc : (s.placeWord w).pc.toNat = s.pc.toNat / 4 * 4 := by
    show (BitVec.ofNat 32 (s.pc.toNat / 4 * 4)).toNat = _
    rw [BitVec.toNat_ofNat]
    exact Nat.mod_eq_of_lt (by omega)
  have hal : misaligned (s.placeWord w).pc = false := (aligned_iff _).mpr (by rw [hpc]; omega)
  rw [State.fetch, imemAt, if_neg (by simp [hal]), hpc, Nat.mul_div_cancel _ (by decide)]
  exact imageWith_get ..

@[simp] theorem placeWord_status (s : State) (w : Word) : (s.placeWord w).status = .running := rfl
@[simp] theorem placeWord_strict (s : State) (w : Word) : (s.placeWord w).cfg.strict = s.cfg.strict := rfl

/-- A fetch that hits reads an aligned pc. -/
theorem fetch_some_aligned {s : State} {w : Word} (h : s.fetch = some w) : s.pc.toNat % 4 = 0 := by
  rw [← aligned_iff]
  unfold State.fetch imemAt at h
  split_ifs at h with hm
  simpa using hm

end Sys2Proof.Machine
end

