-- ==== Sys2Proof/Laws/PerInstr.lean ====
section
/-!
SUPPORT. The per-instruction family RowMatch: the word of an instruction is of the instruction's own row of the opcode table
(spec/30_encoding.md R62), and, when canonical, of the row's canonical form.
-/

namespace Sys2Proof.Laws.RowMatch

/-- The encoded word passes its row's test, and the strict test exactly when the instruction is canonical. -/
def Statement (i : Instr) : Prop :=
  i.row.covers (encode i) ∧ (i.row.coversStrict (encode i) ↔ i.canonical = true)

/-- An OP row: opcode, `funct3` and `funct7` are fixed. -/
theorem op_row {w p : Word} {f7 : BitVec 7} {f3 : BitVec 3} {op : BitVec 7} (hw7 : funct7 w = f7)
    (hw3 : funct3 w = f3) (hwo : opcode w = op) (hp : p = formatR f7 0 0 f3 0 op) : w &&& 0xFE00707F = p := by
  rw [mask_opcode_functs, hw7, hw3, hwo, hp]

/-- An OP-IMM row: opcode and `funct3` are fixed. -/
theorem opImm_row {w p : Word} {f3 : BitVec 3} {op : BitVec 7} (hw3 : funct3 w = f3) (hwo : opcode w = op)
    (hp : p = formatR 0 0 0 f3 0 op) : w &&& 0x0000707F = p := by
  rw [mask_opcode_funct3, hw3, hwo, hp]

/-- A LOAD, STORE or BRANCH row: the opcode is fixed. -/
theorem opcode_row {w p : Word} {op : BitVec 7} (hwo : opcode w = op) (hp : p = formatR 0 0 0 0 0 op) :
    w &&& 0x0000007F = p := by
  rw [mask_opcode, hwo, hp]

/-- The canonical test of LW, SW and BEQ looks at `funct3`. -/
theorem funct3_strict {w p : Word} {f3 : BitVec 3} {op : BitVec 7} (hwo : opcode w = op)
    (hp : p = formatR 0 0 0 f3 0 op) : w &&& 0x0000707F = p ↔ (funct3 w == f3) = true := by
  rw [mask_opcode_funct3, hwo, hp, formatR_inj]
  simp

/-- The canonical test of SLLI and SRLI looks at `instr[31:25]`. -/
theorem funct7_strict {w p : Word} {f7 : BitVec 7} {f3 : BitVec 3} {op : BitVec 7} (hw3 : funct3 w = f3)
    (hwo : opcode w = op) (hp : p = formatR f7 0 0 f3 0 op) :
    w &&& 0xFE00707F = p ↔ (funct7 w == f7) = true := by
  rw [mask_opcode_functs, hw3, hwo, hp, formatR_inj]
  simp

theorem add (rd rs1 rs2 : RegIdx) : Statement (.add rd rs1 rs2) :=
  have h : (encode (.add rd rs1 rs2)) &&& 0xFE00707F = _ :=
    op_row (funct7_formatR ..) (funct3_formatR ..) (opcode_formatR ..) rfl
  ⟨h, fun _ => rfl, fun _ => h⟩

theorem sub (rd rs1 rs2 : RegIdx) : Statement (.sub rd rs1 rs2) :=
  have h : (encode (.sub rd rs1 rs2)) &&& 0xFE00707F = _ :=
    op_row (funct7_formatR ..) (funct3_formatR ..) (opcode_formatR ..) rfl
  ⟨h, fun _ => rfl, fun _ => h⟩

theorem sll (rd rs1 rs2 : RegIdx) : Statement (.sll rd rs1 rs2) :=
  have h : (encode (.sll rd rs1 rs2)) &&& 0xFE00707F = _ :=
    op_row (funct7_formatR ..) (funct3_formatR ..) (opcode_formatR ..) rfl
  ⟨h, fun _ => rfl, fun _ => h⟩

theorem slt (rd rs1 rs2 : RegIdx) : Statement (.slt rd rs1 rs2) :=
  have h : (encode (.slt rd rs1 rs2)) &&& 0xFE00707F = _ :=
    op_row (funct7_formatR ..) (funct3_formatR ..) (opcode_formatR ..) rfl
  ⟨h, fun _ => rfl, fun _ => h⟩

theorem sltu (rd rs1 rs2 : RegIdx) : Statement (.sltu rd rs1 rs2) :=
  have h : (encode (.sltu rd rs1 rs2)) &&& 0xFE00707F = _ :=
    op_row (funct7_formatR ..) (funct3_formatR ..) (opcode_formatR ..) rfl
  ⟨h, fun _ => rfl, fun _ => h⟩

theorem xor (rd rs1 rs2 : RegIdx) : Statement (.xor rd rs1 rs2) :=
  have h : (encode (.xor rd rs1 rs2)) &&& 0xFE00707F = _ :=
    op_row (funct7_formatR ..) (funct3_formatR ..) (opcode_formatR ..) rfl
  ⟨h, fun _ => rfl, fun _ => h⟩

theorem srl (rd rs1 rs2 : RegIdx) : Statement (.srl rd rs1 rs2) :=
  have h : (encode (.srl rd rs1 rs2)) &&& 0xFE00707F = _ :=
    op_row (funct7_formatR ..) (funct3_formatR ..) (opcode_formatR ..) rfl
  ⟨h, fun _ => rfl, fun _ => h⟩

theorem sra (rd rs1 rs2 : RegIdx) : Statement (.sra rd rs1 rs2) :=
  have h : (encode (.sra rd rs1 rs2)) &&& 0xFE00707F = _ :=
    op_row (funct7_formatR ..) (funct3_formatR ..) (opcode_formatR ..) rfl
  ⟨h, fun _ => rfl, fun _ => h⟩

theorem or (rd rs1 rs2 : RegIdx) : Statement (.or rd rs1 rs2) :=
  have h : (encode (.or rd rs1 rs2)) &&& 0xFE00707F = _ :=
    op_row (funct7_formatR ..) (funct3_formatR ..) (opcode_formatR ..) rfl
  ⟨h, fun _ => rfl, fun _ => h⟩

theorem and (rd rs1 rs2 : RegIdx) : Statement (.and rd rs1 rs2) :=
  have h : (encode (.and rd rs1 rs2)) &&& 0xFE00707F = _ :=
    op_row (funct7_formatR ..) (funct3_formatR ..) (opcode_formatR ..) rfl
  ⟨h, fun _ => rfl, fun _ => h⟩

theorem addi (rd rs1 : RegIdx) (imm : BitVec 12) : Statement (.addi rd rs1 imm) :=
  have h : (encode (.addi rd rs1 imm)) &&& 0x0000707F = _ :=
    opImm_row (funct3_formatR ..) (opcode_formatR ..) rfl
  ⟨h, fun _ => rfl, fun _ => h⟩

theorem slti (rd rs1 : RegIdx) (imm : BitVec 12) : Statement (.slti rd rs1 imm) :=
  have h : (encode (.slti rd rs1 imm)) &&& 0x0000707F = _ :=
    opImm_row (funct3_formatR ..) (opcode_formatR ..) rfl
  ⟨h, fun _ => rfl, fun _ => h⟩

theorem sltiu (rd rs1 : RegIdx) (imm : BitVec 12) : Statement (.sltiu rd rs1 imm) :=
  have h : (encode (.sltiu rd rs1 imm)) &&& 0x0000707F = _ :=
    opImm_row (funct3_formatR ..) (opcode_formatR ..) rfl
  ⟨h, fun _ => rfl, fun _ => h⟩

theorem xori (rd rs1 : RegIdx) (imm : BitVec 12) : Statement (.xori rd rs1 imm) :=
  have h : (encode (.xori rd rs1 imm)) &&& 0x0000707F = _ :=
    opImm_row (funct3_formatR ..) (opcode_formatR ..) rfl
  ⟨h, fun _ => rfl, fun _ => h⟩

theorem ori (rd rs1 : RegIdx) (imm : BitVec 12) : Statement (.ori rd rs1 imm) :=
  have h : (encode (.ori rd rs1 imm)) &&& 0x0000707F = _ :=
    opImm_row (funct3_formatR ..) (opcode_formatR ..) rfl
  ⟨h, fun _ => rfl, fun _ => h⟩

theorem andi (rd rs1 : RegIdx) (imm : BitVec 12) : Statement (.andi rd rs1 imm) :=
  have h : (encode (.andi rd rs1 imm)) &&& 0x0000707F = _ :=
    opImm_row (funct3_formatR ..) (opcode_formatR ..) rfl
  ⟨h, fun _ => rfl, fun _ => h⟩

theorem slli (rd rs1 : RegIdx) (imm : BitVec 12) : Statement (.slli rd rs1 imm) := by
  refine ⟨opImm_row (funct3_formatR ..) (opcode_formatR ..) rfl, ?_⟩
  refine (funct7_strict (f7 := 0#7) (funct3_formatR ..) (opcode_formatR ..) rfl).trans ?_
  simp only [funct7_formatR, Instr.canonical]

theorem srli (rd rs1 : RegIdx) (imm : BitVec 12) : Statement (.srli rd rs1 imm) := by
  refine ⟨opImm_row (funct3_formatR ..) (opcode_formatR ..) rfl, ?_⟩
  refine (funct7_strict (f7 := 0#7) (funct3_formatR ..) (opcode_formatR ..) rfl).trans ?_
  simp only [funct7_formatR, Instr.canonical]

theorem lw (rd rs1 : RegIdx) (f3 : BitVec 3) (imm : BitVec 12) : Statement (.lw rd rs1 f3 imm) := by
  refine ⟨opcode_row (opcode_formatR ..) rfl, ?_⟩
  refine (funct3_strict (f3 := 0b010#3) (opcode_formatR ..) rfl).trans ?_
  simp only [funct3_formatR, Instr.canonical]

theorem sw (rs1 rs2 : RegIdx) (f3 : BitVec 3) (imm : BitVec 12) : Statement (.sw rs1 rs2 f3 imm) := by
  refine ⟨opcode_row (opcode_formatR ..) rfl, ?_⟩
  refine (funct3_strict (f3 := 0b010#3) (opcode_formatR ..) rfl).trans ?_
  simp only [funct3_formatR, Instr.canonical]

theorem beq (rs1 rs2 : RegIdx) (f3 : BitVec 3) (imm : BitVec 12) : Statement (.beq rs1 rs2 f3 imm) := by
  refine ⟨opcode_row (opcode_formatR ..) rfl, ?_⟩
  refine (funct3_strict (f3 := 0b000#3) (opcode_formatR ..) rfl).trans ?_
  simp only [funct3_formatR, Instr.canonical]

end Sys2Proof.Laws.RowMatch
end

