-- ==== Sys2Proof/Laws/Step.lean ====
section
/-!
SUPPORT. What the meanings and the step can do, said once.
-/

namespace Sys2Proof.Machine

/-- LW in its two cases: the access refused and its cause taken, or the word written back. -/
theorem execLw_eq (rd rs1 : RegIdx) (f3 : BitVec 3) (imm : BitVec 12) (s : State) :
    execLw rd rs1 f3 imm s = .next (match s.accessError (s.dataAddress rs1 imm) with
      | some c => s.raise c
      | none => s.writeBack rd (s.loadWord (s.dataAddress rs1 imm))) := by
  unfold execLw State.memRead
  cases s.accessError (s.dataAddress rs1 imm) <;> rfl

/-- SW in its two cases: the access refused and its cause taken, or the word stored. -/
theorem execSw_eq (rs1 rs2 : RegIdx) (f3 : BitVec 3) (imm : BitVec 12) (s : State) :
    execSw rs1 rs2 f3 imm s = .next (match s.accessError (s.dataAddress rs1 imm) with
      | some c => s.raise c
      | none => (s.storeWord (s.dataAddress rs1 imm) (s.readReg rs2)).advancePc) := by
  unfold execSw State.memWrite
  cases s.accessError (s.dataAddress rs1 imm) <;> rfl

/-- The ALU's zero output under SUB is equality of the operands. -/
theorem zero_sub_iff (a b : Word) : (alu a b .sub).2 = true ↔ a = b := by
  simp only [alu, aluResult, zeroFlag, beq_iff_eq]
  constructor
  · intro h
    have := congrArg (· + b) h
    simpa using this
  · rintro rfl
    simp

/-- BEQ in its three cases. -/
theorem execBeq_eq (rs1 rs2 : RegIdx) (f3 : BitVec 3) (off : BitVec 12) (s : State) :
    execBeq rs1 rs2 f3 off s = .next (if s.readReg rs1 = s.readReg rs2 then
      if (s.branchTarget off).toNat % 4 ≠ 0 then s.raise .branchTargetMisaligned
      else s.jump (s.branchTarget off)
      else s.advancePc) := by
  unfold execBeq
  simp only [zero_sub_iff, misaligned_iff]
  split_ifs <;> rfl

/-- `execLw_eq` for `exec`. -/
theorem exec_lw (rd rs1 : RegIdx) (f3 : BitVec 3) (imm : BitVec 12) (s : State) :
    exec (.lw rd rs1 f3 imm) s = .next (match s.accessError (s.dataAddress rs1 imm) with
      | some c => s.raise c
      | none => s.writeBack rd (s.loadWord (s.dataAddress rs1 imm))) := execLw_eq rd rs1 f3 imm s

/-- `execSw_eq` for `exec`. -/
theorem exec_sw (rs1 rs2 : RegIdx) (f3 : BitVec 3) (imm : BitVec 12) (s : State) :
    exec (.sw rs1 rs2 f3 imm) s = .next (match s.accessError (s.dataAddress rs1 imm) with
      | some c => s.raise c
      | none => (s.storeWord (s.dataAddress rs1 imm) (s.readReg rs2)).advancePc) := execSw_eq rs1 rs2 f3 imm s

/-- `execBeq_eq` for `exec`. -/
theorem exec_beq (rs1 rs2 : RegIdx) (f3 : BitVec 3) (off : BitVec 12) (s : State) :
    exec (.beq rs1 rs2 f3 off) s = .next (if s.readReg rs1 = s.readReg rs2 then
      if (s.branchTarget off).toNat % 4 ≠ 0 then s.raise .branchTargetMisaligned
      else s.jump (s.branchTarget off)
      else s.advancePc) := execBeq_eq rs1 rs2 f3 off s

/-- What an instruction can do: write a register and move on, store an aligned word of the data space and move on, jump to
an aligned target, move on, or take an error. It always answers a next state. -/
theorem exec_cases (i : Instr) (s : State) : ∃ t, exec i s = .next t ∧
    ((∃ rd v, t = s.writeBack rd v) ∨
      (∃ a v, s.accessError a = none ∧ t = (s.storeWord a v).advancePc) ∨
      (∃ a : Word, a.toNat % 4 = 0 ∧ t = s.jump a) ∨ t = s.advancePc ∨ ∃ c, t = s.raise c) := by
  cases i with
  | lw rd rs1 f3 imm =>
    refine ⟨_, execLw_eq rd rs1 f3 imm s, ?_⟩
    cases h : s.accessError (s.dataAddress rs1 imm) with
    | some c => exact .inr (.inr (.inr (.inr ⟨c, rfl⟩)))
    | none => exact .inl ⟨_, _, rfl⟩
  | sw rs1 rs2 f3 imm =>
    refine ⟨_, execSw_eq rs1 rs2 f3 imm s, ?_⟩
    cases h : s.accessError (s.dataAddress rs1 imm) with
    | some c => exact .inr (.inr (.inr (.inr ⟨c, rfl⟩)))
    | none => exact .inr (.inl ⟨_, _, h, rfl⟩)
  | beq rs1 rs2 f3 off =>
    refine ⟨_, execBeq_eq rs1 rs2 f3 off s, ?_⟩
    split_ifs with _ h
    · exact .inr (.inr (.inr (.inr ⟨_, rfl⟩)))
    · exact .inr (.inr (.inl ⟨_, by simpa using h, rfl⟩))
    · exact .inr (.inr (.inr (.inl rfl)))
  | _ => exact ⟨_, rfl, .inl ⟨_, _, rfl⟩⟩

/-- A HALTED machine's step. -/
theorem step_halted {s : State} (h : s.status = .halted) : step s = .next s := by
  simp [step, h]

/-- A RUNNING machine's step on a lookup miss. -/
theorem step_miss {s : State} (h : s.status = .running) (hf : s.fetch = none) : step s = .next s.haltClean := by
  simp [step, h, hf]

/-- A RUNNING machine's step on a word that does not decode. -/
theorem step_undecoded {s : State} {w : Word} {c : Cause} (h : s.status = .running) (hf : s.fetch = some w)
    (hd : decode s.cfg.strict w = .error c) : step s = .next (s.raise c) := by
  simp [step, h, hf, hd]

/-- A RUNNING machine's step on a word that decodes. -/
theorem step_decoded {s : State} {w : Word} {i : Instr} (h : s.status = .running) (hf : s.fetch = some w)
    (hd : decode s.cfg.strict w = .ok i) : step s = exec i s := by
  simp [step, h, hf, hd]

/-- What a step can do. -/
theorem step_cases (s : State) :
    (s.status = .halted ∧ step s = .next s) ∨
      (s.status = .running ∧ s.fetch = none ∧ step s = .next s.haltClean) ∨
      (∃ w c, s.status = .running ∧ s.fetch = some w ∧ decode s.cfg.strict w = .error c ∧
        step s = .next (s.raise c)) ∨
      (∃ w i, s.status = .running ∧ s.fetch = some w ∧ decode s.cfg.strict w = .ok i ∧ step s = exec i s) := by
  cases hs : s.status with
  | halted => exact .inl ⟨rfl, step_halted hs⟩
  | running =>
    cases hf : s.fetch with
    | none => exact .inr (.inl ⟨rfl, rfl, step_miss hs hf⟩)
    | some w =>
      cases hd : decode s.cfg.strict w with
      | error c => exact .inr (.inr (.inl ⟨w, c, rfl, rfl, hd, step_undecoded hs hf hd⟩))
      | ok i => exact .inr (.inr (.inr ⟨w, i, rfl, rfl, hd, step_decoded hs hf hd⟩))

/-- A run of k + 1 steps from a state whose step answers `t` is a run of k steps from `t`. -/
theorem run_succ {s t : State} (k : Nat) (h : step s = .next t) : core.run (k + 1) s = core.run k t := by
  have h' : core.step s = .next t := h
  simp only [Host.Core.run, h']

end Sys2Proof.Machine
end

