-- ==== Sys2Proof/Tests/Slice0.lean ====
section
/-!
SUPPORT. The model's own tests, each of one step on a small state, and for every statement with hypotheses a state or word that meets
them. Expected values are those of spec/95_test_vectors.md unless a comment says otherwise.
-/

namespace Sys2Proof.Tests

open Sys2Proof Sys2Proof.Machine

/-! ## Helpers -/

/-- A machine from reset with registers, memory words (little-endian, the default) and pc preset (70_reset_and_hazards.md R201
allows it as a precondition), about to run the word `w`. -/
def machine (w : Word) (regs : List (RegIdx × Word)) (mem : List (Nat × Word) := []) (pc : Word := 0) : State :=
  let s := regs.foldl (fun s p => s.writeReg p.1 p.2) { State.reset with pc := pc }
  let s := mem.foldl (fun s p => { s with dmem := s.dmem.writeWord .little p.1 p.2 }) s
  s.placeWord w

/-- With `STRICT_RV32I` = true. -/
def strictly (s : State) : State := { s with cfg := { s.cfg with strict := true } }

/-- With `DMEM_BYTE_ORDER` = big; used where the memory is empty before the step. -/
def bigEndian (s : State) : State := { s with cfg := { s.cfg with byteOrder := .big } }

/-- Registers x1 and x2, as the vectors of section 5 start. -/
def xs (a b : Word) : List (RegIdx × Word) := [(1, a), (2, b)]

/-- After a step that CONTINUEs: register `r` and the pc. -/
def regAfter (s : State) (r : RegIdx) : Option (Word × Word) :=
  match step s with
  | .next t => if t.result = .continues then some (t.readReg r, t.pc) else none
  | .fault _ => none
  | .refused _ => none

/-- After a step that CONTINUEs: the memory word at `a` and the pc. -/
def wordAfter (s : State) (a : Word) : Option (Word × Word) :=
  match step s with
  | .next t => if t.result = .continues then some (t.loadWord a, t.pc) else none
  | .fault _ => none
  | .refused _ => none

/-- After a step: its result and the pc. -/
def resultAfter (s : State) : Option (StepResult × Word) :=
  match step s with
  | .next t => some (t.result, t.pc)
  | .fault _ => none
  | .refused _ => none

/-- The state after a step. -/
def stateAfter (s : State) : Option State :=
  match step s with
  | .next t => some t
  | .fault _ => none
  | .refused _ => none

/-! ## WellFormed: for each check an instruction that STRICT_RV32I = true refuses (R67), and its canonical neighbour -/

theorem test_slli_not_canonical :
    Instr.wellFormed true (.slli 3 1 0x7E3) = false ∧ Instr.wellFormed false (.slli 3 1 0x7E3) = true ∧
      Instr.wellFormed true (.slli 3 1 3) = true := by decide

theorem test_srli_not_canonical :
    Instr.wellFormed true (.srli 3 1 0x404) = false ∧ Instr.wellFormed false (.srli 3 1 0x404) = true ∧
      Instr.wellFormed true (.srli 3 1 4) = true := by decide

theorem test_lw_not_canonical :
    Instr.wellFormed true (.lw 3 1 0b000 0xFFC) = false ∧ Instr.wellFormed false (.lw 3 1 0b000 0xFFC) = true ∧
      Instr.wellFormed true (.lw 3 1 0b010 0xFFC) = true := by decide

theorem test_sw_not_canonical :
    Instr.wellFormed true (.sw 1 2 0b000 8) = false ∧ Instr.wellFormed false (.sw 1 2 0b000 8) = true ∧
      Instr.wellFormed true (.sw 1 2 0b010 8) = true := by decide

theorem test_beq_not_canonical :
    Instr.wellFormed true (.beq 1 2 0b001 4) = false ∧ Instr.wellFormed false (.beq 1 2 0b001 4) = true ∧
      Instr.wellFormed true (.beq 1 2 0b000 4) = true := by decide

/-! ## Decoding: a word of every row, from sections 3, 5, 6, 7 and 8; each also witnesses its row's statement -/

theorem witness_AddWritesItsResult : 0x002081B3#32 &&& 0xFE00707F#32 = 0x00000033#32 ∧
    decode false 0x002081B3#32 = .ok (.add 3 1 2) := by decide

theorem witness_SubWritesItsResult : 0x402081B3#32 &&& 0xFE00707F#32 = 0x40000033#32 ∧
    decode false 0x402081B3#32 = .ok (.sub 3 1 2) := by decide

theorem witness_SllWritesItsResult : 0x002091B3#32 &&& 0xFE00707F#32 = 0x00001033#32 ∧
    decode false 0x002091B3#32 = .ok (.sll 3 1 2) := by decide

theorem witness_SltWritesItsResult : 0x0020A1B3#32 &&& 0xFE00707F#32 = 0x00002033#32 ∧
    decode false 0x0020A1B3#32 = .ok (.slt 3 1 2) := by decide

theorem witness_SltuWritesItsResult : 0x0020B1B3#32 &&& 0xFE00707F#32 = 0x00003033#32 ∧
    decode false 0x0020B1B3#32 = .ok (.sltu 3 1 2) := by decide

theorem witness_XorWritesItsResult : 0x0020C1B3#32 &&& 0xFE00707F#32 = 0x00004033#32 ∧
    decode false 0x0020C1B3#32 = .ok (.xor 3 1 2) := by decide

theorem witness_SrlWritesItsResult : 0x0020D1B3#32 &&& 0xFE00707F#32 = 0x00005033#32 ∧
    decode false 0x0020D1B3#32 = .ok (.srl 3 1 2) := by decide

theorem witness_SraWritesItsResult : 0x4020D1B3#32 &&& 0xFE00707F#32 = 0x40005033#32 ∧
    decode false 0x4020D1B3#32 = .ok (.sra 3 1 2) := by decide

theorem witness_OrWritesItsResult : 0x0020E1B3#32 &&& 0xFE00707F#32 = 0x00006033#32 ∧
    decode false 0x0020E1B3#32 = .ok (.or 3 1 2) := by decide

theorem witness_AndWritesItsResult : 0x0020F1B3#32 &&& 0xFE00707F#32 = 0x00007033#32 ∧
    decode false 0x0020F1B3#32 = .ok (.and 3 1 2) := by decide

theorem witness_AddiWritesItsResult : 0xFFF08193#32 &&& 0x0000707F#32 = 0x00000013#32 ∧
    decode true 0xFFF08193#32 = .ok (.addi 3 1 0xFFF) := by decide

theorem witness_SltiWritesItsResult : 0xFFF0A193#32 &&& 0x0000707F#32 = 0x00002013#32 ∧
    decode true 0xFFF0A193#32 = .ok (.slti 3 1 0xFFF) := by decide

theorem witness_SltiuWritesItsResult : 0xFFF0B193#32 &&& 0x0000707F#32 = 0x00003013#32 ∧
    decode true 0xFFF0B193#32 = .ok (.sltiu 3 1 0xFFF) := by decide

theorem witness_XoriWritesItsResult : 0xFFF0C193#32 &&& 0x0000707F#32 = 0x00004013#32 ∧
    decode true 0xFFF0C193#32 = .ok (.xori 3 1 0xFFF) := by decide

theorem witness_OriWritesItsResult : 0x5550E193#32 &&& 0x0000707F#32 = 0x00006013#32 ∧
    decode true 0x5550E193#32 = .ok (.ori 3 1 0x555) := by decide

theorem witness_AndiWritesItsResult : 0xF0F0F193#32 &&& 0x0000707F#32 = 0x00007013#32 ∧
    decode true 0xF0F0F193#32 = .ok (.andi 3 1 0xF0F) := by decide

/-- The canonical word, and a word that STRICT_RV32I = true refuses. -/
theorem witness_SlliWritesItsResult :
    (0x00409193#32 &&& 0x0000707F#32 = 0x00001013#32 ∧ 0x00409193#32 &&& 0xFE00707F#32 = 0x00001013#32 ∧
      decode true 0x00409193#32 = .ok (.slli 3 1 4)) ∧
    0x7E309193#32 &&& 0x0000707F#32 = 0x00001013#32 ∧ 0x7E309193#32 &&& 0xFE00707F#32 ≠ 0x00001013#32 ∧
      decode false 0x7E309193#32 = .ok (.slli 3 1 0x7E3) ∧
      decode true 0x7E309193#32 = .error .unsupportedFunct := by decide

/-- The canonical word, and a word that STRICT_RV32I = true refuses. -/
theorem witness_SrliWritesItsResult :
    (0x0040D193#32 &&& 0x0000707F#32 = 0x00005013#32 ∧ 0x0040D193#32 &&& 0xFE00707F#32 = 0x00005013#32 ∧
      decode true 0x0040D193#32 = .ok (.srli 3 1 4)) ∧
    0x4040D193#32 &&& 0x0000707F#32 = 0x00005013#32 ∧ 0x4040D193#32 &&& 0xFE00707F#32 ≠ 0x00005013#32 ∧
      decode false 0x4040D193#32 = .ok (.srli 3 1 0x404) ∧
      decode true 0x4040D193#32 = .error .unsupportedFunct := by decide

/-- The canonical word, and a word that STRICT_RV32I = true refuses. -/
theorem test_decode_lw :
    (0xFFC0A183#32 &&& 0x0000007F#32 = 0x00000003#32 ∧ 0xFFC0A183#32 &&& 0x0000707F#32 = 0x00002003#32 ∧
      decode true 0xFFC0A183#32 = .ok (.lw 3 1 0b010 0xFFC)) ∧
    0xFFC08183#32 &&& 0x0000007F#32 = 0x00000003#32 ∧ 0xFFC08183#32 &&& 0x0000707F#32 ≠ 0x00002003#32 ∧
      decode false 0xFFC08183#32 = .ok (.lw 3 1 0b000 0xFFC) ∧
      decode true 0xFFC08183#32 = .error .unsupportedFunct := by decide

/-- The canonical word, and a word that STRICT_RV32I = true refuses. -/
theorem test_decode_sw :
    (0xFE532E23#32 &&& 0x0000007F#32 = 0x00000023#32 ∧ 0xFE532E23#32 &&& 0x0000707F#32 = 0x00002023#32 ∧
      decode true 0xFE532E23#32 = .ok (.sw 6 5 0b010 0xFFC)) ∧
    0x00208423#32 &&& 0x0000007F#32 = 0x00000023#32 ∧ 0x00208423#32 &&& 0x0000707F#32 ≠ 0x00002023#32 ∧
      decode false 0x00208423#32 = .ok (.sw 1 2 0b000 8) ∧
      decode true 0x00208423#32 = .error .unsupportedFunct := by decide

/-- The canonical word, and a word that STRICT_RV32I = true refuses. -/
theorem test_decode_beq :
    (0xFE208CE3#32 &&& 0x0000007F#32 = 0x00000063#32 ∧ 0xFE208CE3#32 &&& 0x0000707F#32 = 0x00000063#32 ∧
      decode true 0xFE208CE3#32 = .ok (.beq 1 2 0b000 0xFFC)) ∧
    0x00209463#32 &&& 0x0000007F#32 = 0x00000063#32 ∧ 0x00209463#32 &&& 0x0000707F#32 ≠ 0x00000063#32 ∧
      decode false 0x00209463#32 = .ok (.beq 1 2 0b001 4) ∧
      decode true 0x00209463#32 = .error .unsupportedFunct := by decide

/-- The words of section 3 that do not decode. -/
theorem test_decode_errors :
    ([0x402091B3#32, 0x202081B3#32, 0x022081B3#32].all
      fun w => decide (decode false w = .error .unsupportedFunct)) = true ∧
    ([0x0000006F#32, 0x008000EF#32, 0x000010B7#32, 0x00000073#32, 0x0FF0000F#32, 0x00000000#32, 0xFFFFFFFF#32,
      0x00008082#32].all fun w => decide (decode false w = .error .unsupportedOpcode)) = true := by decide

/-- The field extraction row of section 3: 0x4051D333 is sra x6, x3, x5. -/
theorem test_fields : opcode 0x4051D333 = 0b0110011#7 ∧ rdField 0x4051D333 = 6#5 ∧ funct3 0x4051D333 = 0b101#3 ∧
    rs1Field 0x4051D333 = 3#5 ∧ rs2Field 0x4051D333 = 5#5 ∧ funct7 0x4051D333 = 0b0100000#7 := by decide

/-- The S and B words of section 2, one bit at a time at the places where the bits change order. -/
theorem test_immediates : immGen 0x000020A3 = 1#32 ∧ immGen 0x02002023 = 32#32 ∧ immGen 0x80002023 = 0xFFFFF800#32 ∧
    immGen 0x7FF00013 = 2047#32 ∧ immGen 0x80000013 = 0xFFFFF800#32 ∧ immGen 0x00000163 = 2#32 ∧
    immGen 0x00000863 = 16#32 ∧ immGen 0x02000063 = 32#32 ∧ immGen 0x40000063 = 1024#32 ∧
    immGen 0x000000E3 = 2048#32 ∧ immGen 0x80000063 = 0xFFFFF000#32 ∧ immGen 0x7E000FE3 = 4094#32 ∧
    immGen 0xFE000FE3 = 0xFFFFFFFE#32 ∧ immGen 0x002081B3 = 0#32 := by decide

/-- The encoder on words of sections 5, 7 and 8. -/
theorem test_encode : encode (.sra 3 1 2) = 0x4020D1B3#32 ∧ encode (.sw 6 5 0b010 0xFFC) = 0xFE532E23#32 ∧
    encode (.beq 1 2 0b000 0xFFC) = 0xFE208CE3#32 ∧ encode (.addi 3 1 0x800) = 0x80008193#32 := by decide

theorem test_decodeTableWord : decodeTableWord 32 0x40005033 = some (.sra 0 0 0) ∧
    decodeTableWord 32 0x40000000 = none := by decide

/-! ## One step of each instruction (sections 4 to 8) -/

theorem test_add_wraps : regAfter (machine 0x002081B3#32 (xs 0x7FFFFFFF#32 0x00000001#32)) 3 = some (0x80000000#32, 4#32) := by
  decide

theorem test_sub_below_zero : regAfter (machine 0x402081B3#32 (xs 0x80000000#32 0x00000001#32)) 3 = some (0x7FFFFFFF#32, 4#32) := by
  decide

theorem test_sll_amount_low_five : regAfter (machine 0x002091B3#32 (xs 0x80000001#32 0xFFFFFFE4#32)) 3 = some (0x00000010#32, 4#32) := by
  decide

theorem test_slt_negative : regAfter (machine 0x0020A1B3#32 (xs 0xFFFFFFFF#32 0x00000001#32)) 3 = some (0x00000001#32, 4#32) := by
  decide

theorem test_sltu_large : regAfter (machine 0x0020B1B3#32 (xs 0xFFFFFFFF#32 0x00000001#32)) 3 = some (0x00000000#32, 4#32) := by
  decide

theorem test_xor_bits : regAfter (machine 0x0020C1B3#32 (xs 0xF0F0F0F0#32 0x0FF00FF0#32)) 3 = some (0xFF00FF00#32, 4#32) := by
  decide

theorem test_srl_by_31 : regAfter (machine 0x0020D1B3#32 (xs 0x80000001#32 0x0000001F#32)) 3 = some (0x00000001#32, 4#32) := by
  decide

theorem test_srl_logical : regAfter (machine 0x0020D1B3#32 (xs 0x80000001#32 0xFFFFFFE4#32)) 3 = some (0x08000000#32, 4#32) := by
  decide

theorem test_sra_by_31 : regAfter (machine 0x4020D1B3#32 (xs 0x80000001#32 0x0000001F#32)) 3 = some (0xFFFFFFFF#32, 4#32) := by
  decide

theorem test_sra_by_32_is_0 : regAfter (machine 0x4020D1B3#32 (xs 0x80000001#32 0x00000020#32)) 3 = some (0x80000001#32, 4#32) := by
  decide

theorem test_or_bits : regAfter (machine 0x0020E1B3#32 (xs 0xF0F0F0F0#32 0x0FF00FF0#32)) 3 = some (0xFFF0FFF0#32, 4#32) := by
  decide

theorem test_and_bits : regAfter (machine 0x0020F1B3#32 (xs 0xF0F0F0F0#32 0x0FF00FF0#32)) 3 = some (0x00F000F0#32, 4#32) := by
  decide

theorem test_sltu_small : regAfter (machine 0x0020B1B3#32 (xs 0x00000001#32 0x80000000#32)) 3 = some (0x00000001#32, 4#32) := by
  decide

theorem test_slt_positive : regAfter (machine 0x0020A1B3#32 (xs 0x00000001#32 0x80000000#32)) 3 = some (0x00000000#32, 4#32) := by
  decide

theorem test_sll_by_32_is_0 : regAfter (machine 0x002091B3#32 (xs 0x80000001#32 0x00000020#32)) 3 = some (0x80000001#32, 4#32) := by
  decide

theorem test_sub_into_its_source : regAfter (machine 0x403181B3 [(3, 0xFFFFFFFF)]) 3 = some (0#32, 4#32) := by
  decide

/-- A write to x0 is discarded and the pc moves on (section 5). -/
theorem test_add_to_x0 : regAfter (machine 0x00108033 [(1, 0x7FF0)]) 0 = some (0#32, 4#32) := by decide

theorem test_addi_minus_one : regAfter (machine 0xFFF08193#32 [(1, 0x00000000#32)]) 3 = some (0xFFFFFFFF#32, 4#32) := by decide

theorem test_addi_wraps : regAfter (machine 0x7FF08193#32 [(1, 0x7FFFF801#32)]) 3 = some (0x80000000#32, 4#32) := by decide

theorem test_slti_below : regAfter (machine 0xFFF0A193#32 [(1, 0xFFFFFFFE#32)]) 3 = some (0x00000001#32, 4#32) := by decide

theorem test_slti_equal : regAfter (machine 0xFFF0A193#32 [(1, 0xFFFFFFFF#32)]) 3 = some (0x00000000#32, 4#32) := by decide

theorem test_sltiu_minus_one_is_large : regAfter (machine 0xFFF0B193#32 [(1, 0xFFFFFFFE#32)]) 3 = some (0x00000001#32, 4#32) := by decide

theorem test_sltiu_seqz : regAfter (machine 0x0010B193#32 [(1, 0x00000001#32)]) 3 = some (0x00000000#32, 4#32) := by decide

theorem test_xori_minus_one : regAfter (machine 0xFFF0C193#32 [(1, 0x12345678#32)]) 3 = some (0xEDCBA987#32, 4#32) := by decide

theorem test_ori_bits : regAfter (machine 0x5550E193#32 [(1, 0xAAAAA000#32)]) 3 = some (0xAAAAA555#32, 4#32) := by decide

theorem test_andi_sign_extended : regAfter (machine 0xF0F0F193#32 [(1, 0x12345678#32)]) 3 = some (0x12345608#32, 4#32) := by decide

theorem test_andi_positive : regAfter (machine 0x7FF0F193#32 [(1, 0xFFFFFFFF#32)]) 3 = some (0x000007FF#32, 4#32) := by decide

theorem test_slli_by_31 : regAfter (machine 0x01F09193#32 [(1, 0x00000001#32)]) 3 = some (0x80000000#32, 4#32) := by decide

theorem test_slli_high_bits_ignored : regAfter (machine 0x7E309193#32 [(1, 0x00000001#32)]) 3 = some (0x00000008#32, 4#32) := by decide

theorem test_srli_by_4 : regAfter (machine 0x0040D193#32 [(1, 0x87654321#32)]) 3 = some (0x08765432#32, 4#32) := by decide

theorem test_srli_not_srai : regAfter (machine 0x4040D193#32 [(1, 0x87654321#32)]) 3 = some (0x08765432#32, 4#32) := by decide

theorem test_lw_negative_offset :
    regAfter (machine 0xFFC0A183 [(1, 0x104)] [(0x100, 0x11223344)]) 3 = some (0x11223344#32, 4#32) := by decide

/-- The access is checked although rd is 0. -/
theorem test_lw_to_x0_misaligned :
    resultAfter (machine 0x0000A003 [(1, 2)]) = some (.error .memMisaligned, 0#32) := by decide

/-- RV32I's `sb`: the whole word is stored, at the last word of the memory. -/
theorem test_sw_last_word : wordAfter (machine 0x00208423 (xs 0xFFF4 0xAABBCCDD)) 0xFFFC =
    some (0xAABBCCDD#32, 4#32) := by decide

/-- Misaligned is reported before out of range (address FFFFFFFD), and one word past the end is out of range. -/
theorem test_sw_errors :
    resultAfter (machine 0x0020A423 (xs 0xFFFFFFF5 1)) = some (.error .memMisaligned, 0#32) ∧
    resultAfter (machine 0x0020A423 (xs 0xFFF8 1)) = some (.error .memOutOfRange, 0#32) := by decide

/-- Taken to 0x08, not taken to 0x14, at pc 0x10; -12 from 8 wraps to FFFFFFFC. -/
theorem test_beq_back :
    resultAfter (machine 0xFE208CE3 (xs 5 5) [] 0x10) = some (.continues, 8#32) ∧
    resultAfter (machine 0xFE208CE3 (xs 5 6) [] 0x10) = some (.continues, 0x14#32) ∧
    resultAfter (machine 0xFE208AE3 (xs 5 5) [] 8) = some (.continues, 0xFFFFFFFC#32) := by decide

/-- The target of +2 raises only when the branch is taken, and the pc stays. -/
theorem test_beq_misaligned :
    resultAfter (machine 0x00208163 (xs 5 5) [] 0x10) = some (.error .branchTargetMisaligned, 0x10#32) ∧
    resultAfter (machine 0x00208163 (xs 5 6) [] 0x10) = some (.continues, 0x14#32) := by decide

/-- Where no instruction stands, the step is END (section 8, the row of -12). -/
theorem test_fetch_miss : resultAfter { State.reset with pc := 0xFFFFFFFC } = some (.ends, 0xFFFFFFFC#32) := by decide

/-! ## The ALU, reset, the host's side -/

/-- The source's own vectors (section 1, S4). -/
theorem test_alu_s4 : alu 5 3 .sub = (2#32, false) ∧ alu 3 3 .sub = (0#32, true) ∧
    alu 0xFFFFFFFF 1 .slt = (1#32, false) ∧ alu 0xFFFFFFFF 1 .sltu = (0#32, true) := by decide

/-- The empty program (section 9, P9 c): the first step from reset is END at pc 0. -/
theorem test_reset_has_no_program : resultAfter State.reset = some (.ends, 0#32) := by decide

/-- Reset gives DMEM_INIT in either byte order (R190). -/
theorem test_reset_memory :
    (State.resetWith { Config.default with dmemInit := [1, 0xAABBCCDD] }).loadWord 4 = 0xAABBCCDD#32 ∧
    (State.resetWith { Config.default with dmemInit := [1, 0xAABBCCDD], byteOrder := .big }).dmem =
      [(3, 1), (4, 0xAA), (5, 0xBB), (6, 0xCC), (7, 0xDD)] := by decide

/-- A configuration outside the bounds of R6 gives no machine; the default one does. -/
theorem test_boot : State.boot { Config.default with dmemSize := 65538 } = none ∧
    State.boot Config.default = some State.reset := by decide

/-- The byte view of dmem[0x28] = AABBCCDD (section 7), as the SW of that section leaves it. -/
theorem test_dump_orders :
    (stateAfter (machine 0x0020A423 (xs 0x20 0xAABBCCDD))).map (fun t => t.dumpBytes 0x28 4) =
      some [0xDD, 0xCC, 0xBB, 0xAA] ∧
    (stateAfter (bigEndian (machine 0x0020A423 (xs 0x20 0xAABBCCDD)))).map (fun t => t.dumpBytes 0x28 4) =
      some [0xAA, 0xBB, 0xCC, 0xDD] := by decide

/-- What the ports of R28 show before the ADD of section 1's S6: the word at the pc, RUNNING, code 0, x1 and a memory word. -/
theorem test_ports : ports (machine 0x002081B3 (xs 7 5) [(8, 9)]) 1 8 =
    ⟨0, true, some 0x002081B3, true, 0, 7, 0, some 9⟩ := by decide

/-- Image lines of section 9, P1, with a blank line between them (R204), and a line that is too short. -/
theorem test_image :
    parseImage ["00000000010100000000000010010011".toList, [], "00000000000000000000000100010011".toList] =
      some [0x00500093, 0x00000113] ∧
    parseImage ["0000000001010000000000001001001".toList] = none := by decide

/-- The word placed is the word run, from reset and from a HALTED machine alike. -/
theorem test_withFetchWord :
    regAfter (State.reset.withFetchWord 32 0x00500093) 1 = some (5#32, 4#32) ∧
    regAfter ((State.reset.raise .memMisaligned).withFetchWord 32 0x00500093) 1 = some (5#32, 4#32) := by decide

/-- STRICT_RV32I = true refuses RV32I's srai (section 3, and section 9, P8). -/
theorem test_strict_step : resultAfter (strictly (machine 0x4040D193 [(1, 0xFFFFFFF0)])) =
    some (.error .unsupportedFunct, 0#32) := by decide

/-! ## Witnesses: for each statement with hypotheses, values that meet them all -/

theorem witness_DecodeOfEncode : Instr.wellFormed true (.slli 3 1 4) = true ∧
    Instr.wellFormed false (.slli 3 1 0xFFF) = true := by decide

theorem witness_EncodeOfDecode : decode true 0x00C02383 = .ok (.lw 7 0 0b010 12) ∧
    decode false 0xFFC08183 = .ok (.lw 3 1 0b000 0xFFC) := by decide

/-- A row covers a word, strictly too; a word that only the loose row covers; a word that no row covers. -/
theorem witness_RowsAreTheDecodableWords :
    (∃ r ∈ opcodeTable, r.covers 0x00409193 ∧ r.coversStrict 0x00409193 ∧
      decode true 0x00409193 = .ok (.slli 3 1 4)) ∧
    (∃ r ∈ opcodeTable, r.covers 0x7E309193 ∧ ¬ r.coversStrict 0x7E309193 ∧
      decode false 0x7E309193 = .ok (.slli 3 1 0x7E3)) ∧
    ∀ r ∈ opcodeTable, ¬ r.covers 0x00000073 := by
  unfold OpcodeRow.covers OpcodeRow.coversStrict
  decide

theorem witness_UnsupportedOpcodeRaises :
    (machine 0x00000073 []).status = .running ∧ (machine 0x00000073 []).fetch = some 0x00000073 ∧
      opcode 0x00000073 ∉ supportedOpcodes := by decide

/-- A pair outside the ten, and a word refused only when strict. -/
theorem witness_UnsupportedFunctRaises :
    ((machine 0x022081B3 []).status = .running ∧ (machine 0x022081B3 []).fetch = some 0x022081B3 ∧
      opcode 0x022081B3 = 0b0110011#7 ∧ (funct3 0x022081B3, funct7 0x022081B3) ∉ supportedFuncts) ∧
    (strictly (machine 0x00209463 [])).status = .running ∧
      (strictly (machine 0x00209463 [])).fetch = some 0x00209463 ∧
      (strictly (machine 0x00209463 [])).cfg.strict = true ∧ opcode 0x00209463 = 0b1100011#7 ∧
      funct3 0x00209463 ≠ 0b000#3 := by decide

/-- A strict machine about to run a canonical ADDI. -/
theorem witness_StrictRunsAsLoose :
    (strictly (machine 0xFFF08193 [])).status = .running ∧
      (strictly (machine 0xFFF08193 [])).fetch = some 0xFFF08193 ∧
      decode (strictly (machine 0xFFF08193 [])).cfg.strict 0xFFF08193 = .ok (.addi 3 1 0xFFF) ∧
      (stateAfter (strictly (machine 0xFFF08193 []))).isSome = true := by decide

theorem witness_ShiftImmediateIgnoresHighBits : opcode 0x4040D193 = 0b0010011#7 ∧
    (0x404#12).toNat % 32 = (0x004#12).toNat % 32 := by decide

theorem witness_Funct3IgnoredByLoadStoreBranch : opcode 0xFFC08183 = 0b0000011#7 ∧ opcode 0x00208423 = 0b0100011#7 ∧
    opcode 0x00209463 = 0b1100011#7 := by decide

/-- Each format at its most negative word, and an R word. -/
theorem witness_ImmediateGeneratorValues :
    (opcode 0x80000013 = 0b0010011#7 ∧ (immGen 0x80000013).toInt = -2048) ∧
    (opcode 0x80002003 = 0b0000011#7 ∧ (immGen 0x80002003).toInt = -2048) ∧
    (opcode 0x80002023 = 0b0100011#7 ∧ (immGen 0x80002023).toInt = -2048) ∧
    (opcode 0x80000063 = 0b1100011#7 ∧ (immGen 0x80000063).toInt = -4096) ∧
    opcode 0x002081B3 = 0b0110011#7 := by decide

theorem witness_ControlSignalTable : (0b1110011#7) ∉ supportedOpcodes := by decide

theorem witness_StepRunsTheDecodedInstruction :
    (machine 0x002081B3 (xs 7 5)).status = .running ∧ (machine 0x002081B3 (xs 7 5)).fetch = some 0x002081B3 ∧
      decode (machine 0x002081B3 (xs 7 5)).cfg.strict 0x002081B3 = .ok (.add 3 1 2) := by decide

theorem witness_HaltedIsTerminal : State.reset.haltClean.status = .halted ∧
    (State.reset.raise .memOutOfRange).status = .halted := by decide

/-- The last word of an image, the address after it, and a pc that is no multiple of 4. -/
theorem witness_FetchReadsTheImage :
    (machine 0x002081B3 [] [] 8).fetch = some 0x002081B3 ∧
    ({ machine 0x002081B3 [] [] 8 with pc := 12 }.fetch = none ∧
      { machine 0x002081B3 [] [] 8 with pc := 12 }.status = .running) ∧
    { machine 0x002081B3 [] [] 8 with pc := 10 }.fetch = none := by decide

/-- A RUNNING machine whose step is the clean halt, and one whose step is an error. -/
theorem witness_HaltingStepsChangeOnlyStatusAndFault :
    ((stateAfter State.reset).map State.status = some .halted ∧ State.reset.status = .running) ∧
    (stateAfter (machine 0x00000073 [])).map State.status = some .halted ∧
      (machine 0x00000073 []).status = .running := by decide

/-- A step that keeps RUNNING, and one that latches a cause. -/
theorem witness_EveryStepAnswersAState :
    (stateAfter (machine 0x00000013 [])).map State.status = some .running ∧
    (machine 0x00000073 []).status = .running ∧ (machine 0x00000073 []).fault = none ∧
      (stateAfter (machine 0x00000073 [])).map State.fault = some (some .unsupportedOpcode) := by decide

/-- A state that meets the invariant and steps: a store about to write the last word of the memory. -/
theorem witness_StepKeepsTheInvariant :
    (machine 0x0020A423 (xs 0xFFF4 0xAABBCCDD)).Inv ∧
      wordAfter (machine 0x0020A423 (xs 0xFFF4 0xAABBCCDD)) 0xFFFC = some (0xAABBCCDD#32, 4#32) :=
  ⟨⟨by decide, by decide, by decide, by decide, by decide⟩, by decide⟩

/-- The smallest and the largest data memory. -/
theorem witness_InvariantAtReset : ({ Config.default with dmemSize := 4, dmemInit := [7] } : Config).wf ∧
    ({ Config.default with dmemSize := 2 ^ 31 } : Config).wf := by decide

/-- The steps of `test_beq_back`, `test_add_wraps` and `test_sw_errors`: taken, not taken, no branch, halting. -/
theorem witness_PcAfterAStep :
    (machine 0xFE208CE3 (xs 5 5) [] 0x10).status = .running ∧
    (stateAfter (machine 0xFE208CE3 (xs 5 5) [] 0x10)).map State.status = some .running ∧
    (stateAfter (machine 0xFE208CE3 (xs 5 6) [] 0x10)).map State.status = some .running ∧
    (stateAfter (machine 0x002081B3 (xs 7 5))).map State.status = some .running ∧
    (stateAfter (machine 0x0020A423 (xs 0xFFF8 1))).map State.status = some .halted := by decide

theorem witness_WhatAWordMayWrite :
    (machine 0x0020A423 (xs 0x20 9)).dmem.wf ∧ (machine 0x0020A423 (xs 0x20 9)).status = .running ∧
      (machine 0x0020A423 (xs 0x20 9)).fetch = some 0x0020A423 ∧ opcode 0x0020A423 = 0b0100011#7 ∧
      (stateAfter (machine 0x0020A423 (xs 0x20 9))).isSome = true ∧
    (machine 0xFFF08193 []).fetch = some 0xFFF08193 ∧ opcode 0xFFF08193 ≠ 0b0100011#7 := by decide

/-- Two steps of S6: the ADD, then the clean halt. -/
theorem witness_ParametersNeverChange : ∃ t, core.run 2 (machine 0x002081B3 (xs 7 5)) = .next t :=
  ⟨_, rfl⟩

theorem witness_RegisterFilePorts : (31#5) ≠ 0#5 ∧
    ((State.reset.regs.write true 31 5).write true 0 9).read 31 = 5#32 := by decide

/-- An LW at the last word, at an odd address, and one word past the end. -/
theorem witness_LwLoadsOrRaises :
    (((machine 0 [(1, 0xFFF4)]).dataAddress 1 8).toNat % 4 = 0 ∧
      ((machine 0 [(1, 0xFFF4)]).dataAddress 1 8).toNat < (machine 0 [(1, 0xFFF4)]).cfg.dmemSize) ∧
    ((machine 0 [(1, 0xFFFFFFF5)]).dataAddress 1 8).toNat % 4 ≠ 0 ∧
    ((machine 0 [(1, 0xFFF8)]).dataAddress 1 8).toNat % 4 = 0 ∧
      (machine 0 [(1, 0xFFF8)]).cfg.dmemSize ≤ ((machine 0 [(1, 0xFFF8)]).dataAddress 1 8).toNat := by decide

/-- The same addresses for SW, in a memory that already holds the word; here the base wraps round to address 4. -/
theorem witness_SwStoresOrRaises :
    ((machine 0 [(1, 0xFFFFFFFC)] [(4, 7)]).dmem.wf ∧
      ((machine 0 [(1, 0xFFFFFFFC)] [(4, 7)]).dataAddress 1 8) = 4#32) ∧
    ((machine 0 [(1, 0xFFFFFFF5)]).dmem.wf ∧ ((machine 0 [(1, 0xFFFFFFF5)]).dataAddress 1 8).toNat % 4 ≠ 0) ∧
    (machine 0 [(1, 0xFFF8)]).dmem.wf ∧ ((machine 0 [(1, 0xFFF8)]).dataAddress 1 8).toNat % 4 = 0 ∧
      (machine 0 [(1, 0xFFF8)]).cfg.dmemSize ≤ ((machine 0 [(1, 0xFFF8)]).dataAddress 1 8).toNat := by decide

/-- Taken to an aligned target, not taken, taken to a misaligned target (offset groups of +8 and +2). -/
theorem witness_BeqBranchesOrFallsThrough :
    ((machine 0 (xs 5 5)).readReg 1 = (machine 0 (xs 5 5)).readReg 2 ∧
      ((machine 0 (xs 5 5)).branchTarget 4).toNat % 4 = 0) ∧
    (machine 0 (xs 5 6)).readReg 1 ≠ (machine 0 (xs 5 6)).readReg 2 ∧
    (machine 0 (xs 5 5)).readReg 1 = (machine 0 (xs 5 5)).readReg 2 ∧
      ((machine 0 (xs 5 5)).branchTarget 1).toNat % 4 ≠ 0 := by decide

/-- `beq x1, x2, 2` and `beq x1, x2, 8`, taken. -/
theorem witness_TakenBranchRaisesIffBit8 :
    ((machine 0x00208163 (xs 5 5)).status = .running ∧ (machine 0x00208163 (xs 5 5)).fetch = some 0x00208163 ∧
      decode (machine 0x00208163 (xs 5 5)).cfg.strict 0x00208163 = .ok (.beq 1 2 0b000 1) ∧
      opcode 0x00208163 = 0b1100011#7 ∧
      (machine 0x00208163 (xs 5 5)).readReg (rs1Field 0x00208163) =
        (machine 0x00208163 (xs 5 5)).readReg (rs2Field 0x00208163) ∧
      (0x00208163#32).getLsbD 8 = true) ∧
    (machine 0x00208463 (xs 5 5)).fetch = some 0x00208463 ∧
      decode (machine 0x00208463 (xs 5 5)).cfg.strict 0x00208463 = .ok (.beq 1 2 0b000 4) ∧
      (machine 0x00208463 (xs 5 5)).readReg (rs1Field 0x00208463) =
        (machine 0x00208463 (xs 5 5)).readReg (rs2Field 0x00208463) ∧
      (0x00208463#32).getLsbD 8 = false := by decide

/-- `sw x2, 8(x1)` at FFFFFFFD, at the end of the memory, and at FFFFF800 (bit 31 set). -/
theorem witness_BadDataAddressRaises :
    ((machine 0x0020A423 (xs 0xFFFFFFF5 1)).status = .running ∧
      (machine 0x0020A423 (xs 0xFFFFFFF5 1)).fetch = some 0x0020A423 ∧
      decode (machine 0x0020A423 (xs 0xFFFFFFF5 1)).cfg.strict 0x0020A423 = .ok (.sw 1 2 0b010 8) ∧
      opcode 0x0020A423 = 0b0100011#7 ∧
      ((machine 0x0020A423 (xs 0xFFFFFFF5 1)).readReg (rs1Field 0x0020A423) + immGen 0x0020A423).toNat % 4 ≠ 0) ∧
    ((machine 0x0020A423 (xs 0xFFF8 1)).fetch = some 0x0020A423 ∧
      ((machine 0x0020A423 (xs 0xFFF8 1)).readReg (rs1Field 0x0020A423) + immGen 0x0020A423).toNat =
        (machine 0x0020A423 (xs 0xFFF8 1)).cfg.dmemSize) ∧
    (machine 0x8020A023 (xs 0 9)).fetch = some 0x8020A023 ∧ (machine 0x8020A023 (xs 0 9)).cfg.wf ∧
      decode (machine 0x8020A023 (xs 0 9)).cfg.strict 0x8020A023 = .ok (.sw 1 2 0b010 0x800) ∧
      ((machine 0x8020A023 (xs 0 9)).readReg (rs1Field 0x8020A023) + immGen 0x8020A023).toNat % 4 = 0 ∧
      ((machine 0x8020A023 (xs 0 9)).readReg (rs1Field 0x8020A023) + immGen 0x8020A023).getLsbD 31 = true := by decide

/-- S7 with an ADDI between: `sw x5, -4(x6)`, `addi x0, x0, 0`, `lw x7, -4(x6)`. -/
def storeLoad : State :=
  { machine 0 [(5, 0xCAFEF00D), (6, 0x40)] with
    cfg := { Config.default with imem := [0xFE532E23, 0x00000013, 0xFFC32383] } }

/-- The state after its SW, and after the ADDI. -/
def stored : State := (storeLoad.storeWord 0x3C 0xCAFEF00D).advancePc

theorem stored_no_store (a : Word) : NoStoreDuring 1 stored a := by
  rintro j m hj hm ⟨-, w, rs1, rs2, f3, imm, hf, hd, -⟩
  obtain rfl : j = 0 := by omega
  cases hm
  have h : stored.fetch = some 0x00000013 := by decide
  have h' : decode stored.cfg.strict 0x00000013 = .ok (.addi 0 0 0) := by decide
  rw [h] at hf
  cases hf
  rw [h'] at hd
  cases hd

/-- The SW is admitted and leaves `stored`; one step further, not a SW, the LW of the same address gives CAFEF00D; and the word at
0x3C is as the SW left it. -/
theorem witness_StoreThenLoad :
    storeLoad.dmem.wf ∧ storeLoad.accessError (storeLoad.dataAddress 6 0xFFC) = none ∧
      exec (.sw 6 5 0b010 0xFFC) storeLoad = .next stored ∧ core.run 1 stored = .next stored.advancePc ∧
      NoStoreDuring 1 stored (storeLoad.dataAddress 6 0xFFC) ∧
      stored.advancePc.dataAddress 6 0xFFC = storeLoad.dataAddress 6 0xFFC ∧
      regAfter stored.advancePc 7 = some (0xCAFEF00D#32, 12#32) ∧
      stored.dmem.wf ∧ (0x3C#32).toNat % 4 = 0 ∧ stored.advancePc.loadWord 0x3C = 0xCAFEF00D#32 :=
  ⟨by decide, by decide, rfl, rfl, stored_no_store _, by decide, by decide, by decide, by decide, by decide⟩

/-- A little-endian machine and a big-endian one about to run the same SW, both with the empty memory. -/
theorem witness_ByteOrderIsUnobservable :
    (machine 0x0020A423 (xs 0x20 0xAABBCCDD)).dmem.wf ∧ (bigEndian (machine 0x0020A423 (xs 0x20 0xAABBCCDD))).dmem.wf ∧
      SameButOrder (machine 0x0020A423 (xs 0x20 0xAABBCCDD)) (bigEndian (machine 0x0020A423 (xs 0x20 0xAABBCCDD))) ∧
      (stateAfter (machine 0x0020A423 (xs 0x20 0xAABBCCDD))).isSome = true :=
  ⟨by decide, by decide, ⟨by decide, by decide, by decide, by decide, by decide,
    fun a _ => (Memory.readWord_nil _ a).trans (Memory.readWord_nil _ a).symm⟩, by decide⟩

/-- The last word of the memory, its last byte. -/
theorem witness_DumpShowsBytesInOrder : (0xFFFC#32).toNat % 4 = 0 ∧
    (0xFFFC#32).toNat + 4 ≤ State.reset.cfg.dmemSize ∧ 3 < 4 ∧
    (machine 0 [] [(0xFFFC, 0xAABBCCDD)]).dumpByte 0xFFFF = some 0xAA := by decide

/-- The three results: CONTINUE, END, ERROR. -/
theorem witness_AdvanceReportsTheResult : State.reset.result = .continues ∧ State.reset.haltClean.result = .ends ∧
    (State.reset.raise .memMisaligned).result = .error .memMisaligned := by decide

theorem witness_CauseCodesAreDistinct : faultCode none = faultCode none := rfl

/-- A blank line, a line of the wrong length, a line of 32 characters with another character in it. -/
theorem witness_ProgramImageReadsBack :
    (blankLine [] = true ∧ blankLine [' ', '\t'] = true) ∧
    (blankLine ['0'] = false ∧ ['0'].length ≠ 32) ∧
    blankLine ('2' :: List.replicate 31 '0') = false ∧
      ∃ c ∈ '2' :: List.replicate 31 '0', c ≠ '0' ∧ c ≠ '1' :=
  ⟨by decide, by decide, by decide, '2', List.mem_cons_self .., by decide⟩

/-- A word placed one word past an image of one, at a pc that is no multiple of 4, in a HALTED machine with a cause latched. -/
theorem witness_PlacedWordIsRunNext :
    decode (machine 0x00000013 []).cfg.strict 0x002081B3 = .ok (.add 3 1 2) ∧
      ({ (machine 0x00000013 []).raise .memMisaligned with pc := 10 }.placeWord 0x002081B3).cfg.imem =
        [0x00000013, 0, 0x002081B3] ∧
      ({ (machine 0x00000013 []).raise .memMisaligned with pc := 10 }.placeWord 0x002081B3).fault = none ∧
      ({ (machine 0x00000013 []).raise .memMisaligned with pc := 10 }.placeWord 0x002081B3).pc = 8#32 := by decide

end Sys2Proof.Tests
end

section
/-!
The machine's invariant: every named operation of the state keeps it, hence every instruction, hence every step; and it holds
at reset.
-/

namespace Sys2Proof.Machine

/-! ## Each operation keeps the invariant -/

/-- A register write touches nothing the invariant speaks of. -/
theorem State.Inv.writeReg {s : State} (h : s.Inv) (rd : RegIdx) (v : Word) : (s.writeReg rd v).Inv where
  config := h.config
  pcAligned := h.pcAligned
  faultOnlyHalted := h.faultOnlyHalted
  memCanonical := h.memCanonical
  memWithin := h.memWithin

/-- The pc moves by 4 modulo 2^32, a multiple of 4 (10_state.md R15, R17). -/
theorem State.Inv.advancePc {s : State} (h : s.Inv) : s.advancePc.Inv where
  config := h.config
  pcAligned := by
    have := h.pcAligned
    rw [advancePc_pc, BitVec.toNat_add, BitVec.toNat_ofNat]
    omega
  faultOnlyHalted := h.faultOnlyHalted
  memCanonical := h.memCanonical
  memWithin := h.memWithin

theorem State.Inv.writeBack {s : State} (h : s.Inv) (rd : RegIdx) (v : Word) : (s.writeBack rd v).Inv :=
  (h.writeReg rd v).advancePc

theorem State.Inv.jump {s : State} (h : s.Inv) {target : Word} (ht : target.toNat % 4 = 0) : (s.jump target).Inv where
  config := h.config
  pcAligned := ht
  faultOnlyHalted := h.faultOnlyHalted
  memCanonical := h.memCanonical
  memWithin := h.memWithin

/-- An admitted store stays inside the data space: the address is aligned and DMEM_SIZE a multiple of 4, so the whole word
lies below DMEM_SIZE once its first byte does (20_memory.md R30, R34). -/
theorem State.Inv.storeWord {s : State} (h : s.Inv) {a : Word} (ha : s.accessError a = none) (v : Word) :
    (s.storeWord a v).Inv where
  config := h.config
  pcAligned := h.pcAligned
  faultOnlyHalted := h.faultOnlyHalted
  memCanonical := Memory.wf_writeWord h.memCanonical ..
  memWithin := by
    obtain ⟨haligned, hlt⟩ := (accessError_none_iff s a).mp ha
    obtain ⟨-, hsize, -, -, -⟩ := h.config
    exact Memory.within_writeWord h.memWithin _ (by omega) v

/-- An error latches its cause, but leaves the machine HALTED (60_exceptions.md R166). -/
theorem State.Inv.raise {s : State} (h : s.Inv) (c : Cause) : (s.raise c).Inv where
  config := h.config
  pcAligned := h.pcAligned
  faultOnlyHalted hrun := nomatch hrun
  memCanonical := h.memCanonical
  memWithin := h.memWithin

theorem State.Inv.haltClean {s : State} (h : s.Inv) : s.haltClean.Inv where
  config := h.config
  pcAligned := h.pcAligned
  faultOnlyHalted hrun := nomatch hrun
  memCanonical := h.memCanonical
  memWithin := h.memWithin

/-! ## Instructions and steps keep the invariant -/

/-- Whatever an instruction does (`exec_cases`), it does by operations that keep the invariant. -/
theorem State.Inv.exec {s t : State} (h : s.Inv) {i : Instr} (hexec : Machine.exec i s = .next t) : t.Inv := by
  obtain ⟨t', ht', hcases⟩ := exec_cases i s
  obtain rfl : t' = t := Host.Outcome.next.inj (ht'.symm.trans hexec)
  obtain ⟨rd, v, rfl⟩ | ⟨a, v, ha, rfl⟩ | ⟨a, ha, rfl⟩ | rfl | ⟨c, rfl⟩ := hcases
  · exact h.writeBack rd v
  · exact (h.storeWord ha v).advancePc
  · exact h.jump ha
  · exact h.advancePc
  · exact h.raise c

/-- Settles O20: by the cases of a step, each an operation or an instruction that keeps the invariant. -/
theorem stepKeepsTheInvariant : Obligations.StepKeepsTheInvariant := by
  intro s t hinv hstep
  obtain ⟨-, hs⟩ | ⟨-, -, hs⟩ | ⟨w, c, -, -, -, hs⟩ | ⟨w, i, -, -, -, hs⟩ := step_cases s
  all_goals rw [hs] at hstep
  · cases hstep
    exact hinv
  · cases hstep
    exact hinv.haltClean
  · cases hstep
    exact hinv.raise c
  · exact hinv.exec hstep

/-! ## Reset -/

/-- Reset under an admitted configuration establishes the invariant; the data memory is DMEM_INIT, which fits. -/
theorem resetWith_inv {c : Config} (hc : c.wf) : (State.resetWith c).Inv where
  config := hc
  pcAligned := rfl
  faultOnlyHalted _ := rfl
  memCanonical := initialMemory_wf c
  memWithin := initialMemory_within c hc

theorem default_wf : Config.default.wf := by decide

theorem reset_eq_resetWith_default : State.reset = State.resetWith Config.default := rfl

theorem boot_of_wf {c : Config} (hc : c.wf) : State.boot c = some (State.resetWith c) := if_pos hc

/-- Settles O21: the default configuration is admitted, and reset under an admitted one meets the invariant. -/
theorem invariantAtReset : Obligations.InvariantAtReset := by
  refine ⟨?_, reset_eq_resetWith_default, fun c hc => ⟨resetWith_inv hc, boot_of_wf hc⟩⟩
  rw [reset_eq_resetWith_default]
  exact resetWith_inv default_wf

end Sys2Proof.Machine
end

section
/-!
The register file, the fetch, and the model's placing of a word: what each answers (10_state.md R11, R12, R18; 20_memory.md R38, R39).
-/

namespace Sys2Proof.Machine

/-! ## The register file -/

/-- A write to index 0 is discarded (10_state.md R12). -/
@[simp] theorem write_zero (rf : RegFile) (en : Bool) (v : Word) : rf.write en 0#5 v = rf :=
  if_neg fun h => h.2 rfl

/-- With `reg_write` 0 nothing is written (10_state.md R12). -/
@[simp] theorem write_false (rf : RegFile) (i : RegIdx) (v : Word) : rf.write false i v = rf :=
  if_neg fun h => Bool.false_ne_true h.1

/-- Settles O26: the last clause is `read_write` at an index that is not 0, where "reads 0 at index 0" is what was read before. -/
theorem registerFilePorts : Obligations.RegisterFilePorts := by
  refine ⟨read_zero, write_zero, write_false, fun rf i j v hi => ?_⟩
  rw [read_write]
  by_cases hj : j = 0#5
  · subst hj
    rw [if_pos rfl, if_neg (Ne.symm hi), read_zero]
  · rw [if_neg hj]

/-! ## Fetch -/

/-- At an aligned pc the fetch reads word pc/4 of the image, if there is one (10_state.md R18). -/
theorem fetch_of_aligned {s : State} (h : s.pc.toNat % 4 = 0) : s.fetch = s.cfg.imem[s.pc.toNat / 4]? := by
  rw [State.fetch, imemAt, (aligned_iff _).mpr h]
  rfl

/-- At any other pc it misses (20_memory.md R39). -/
theorem fetch_of_misaligned {s : State} (h : s.pc.toNat % 4 ≠ 0) : s.fetch = none :=
  if_pos ((misaligned_iff _).mpr h)

/-- The fetch misses exactly at a misaligned pc or past the image's end. -/
theorem fetch_eq_none_iff (s : State) :
    s.fetch = none ↔ s.pc.toNat % 4 ≠ 0 ∨ s.cfg.imem.length ≤ s.pc.toNat / 4 := by
  by_cases h : s.pc.toNat % 4 = 0
  · simp [fetch_of_aligned h, h]
  · simp [fetch_of_misaligned h, h]

/-- Settles O17: the fetch by the alignment of the pc, and the miss by the clean halt (`step_miss`). -/
theorem fetchReadsTheImage : Obligations.FetchReadsTheImage := by
  refine fun s => ⟨fun hlt hpc => ?_, fetch_eq_none_iff s, fun hrun hmiss => ?_⟩
  · rw [fetch_of_aligned hpc, List.getElem?_eq_getElem hlt]
  · exact ⟨s.haltClean, step_miss hrun hmiss, rfl, rfl, rfl, rfl, rfl, rfl⟩

/-! ## Placing a word -/

/-- Every word of the image after word number k is placed: the placed one, the old ones, and zero words up to k. -/
theorem getElem?_imageWith (imem : List Word) (k j : Nat) (w : Word) :
    (imageWith imem k w)[j]? = if j = k then some w
      else if j < imem.length then imem[j]?
      else if j < k then some 0#32 else none := by
  by_cases hk : j = k
  · subst hk
    rw [if_pos rfl, imageWith_get]
  rw [if_neg hk, imageWith, List.getElem?_set_ne (Ne.symm hk)]
  by_cases hold : j < imem.length
  · rw [if_pos hold, List.getElem?_append_left hold]
  rw [if_neg hold, List.getElem?_append_right (Nat.le_of_not_lt hold), List.getElem?_replicate]
  have hpad : j - imem.length < k + 1 - imem.length ↔ j < k := by omega
  simp only [hpad]

/-- Placing a word takes the pc down to a multiple of 4. -/
theorem placeWord_pc_toNat (s : State) (w : Word) : (s.placeWord w).pc.toNat = s.pc.toNat / 4 * 4 := by
  have hlt := s.pc.isLt
  exact (BitVec.toNat_ofNat _ _).trans (Nat.mod_eq_of_lt (by omega))

/-- Placing a word clears the cause only of a machine that was HALTED. -/
theorem placeWord_fault (s : State) (w : Word) :
    (s.placeWord w).fault = if s.status = .running then s.fault else none := by
  unfold State.placeWord
  cases s.status <;> rfl

/-- Settles O57: the placed word is fetched (`fetch_placeWord`) under the same `STRICT_RV32I`, so the step is the decoded one. -/
theorem placedWordIsRunNext : Obligations.PlacedWordIsRunNext := by
  intro s w i hdec
  have hstep : step (s.placeWord w) = exec i (s.placeWord w) :=
    step_decoded (placeWord_status s w) (fetch_placeWord s w) hdec
  exact ⟨hstep, rfl, placeWord_fault s w, rfl, rfl, placeWord_pc_toNat s w, rfl, fun k => getElem?_imageWith ..⟩

end Sys2Proof.Machine
end

section
/-!
What a step keeps of the parameters, the status and the fault latch, and, for the word fetched, which register, which memory word
and which pc it writes (10_state.md R16, R19, R21, R22; 40_datapath.md R104 to R108).
-/

namespace Sys2Proof.Machine

/-! ## Control state -/

/-- An instruction completes with configuration, status and fault as they were, or takes an error. -/
theorem exec_sameControl_or_raise (i : Instr) (s : State) :
    ∃ t, exec i s = .next t ∧ (SameControl s t ∨ ∃ c, t = s.raise c) := by
  obtain ⟨t, hexec, hcases⟩ := exec_cases i s
  refine ⟨t, hexec, ?_⟩
  obtain ⟨rd, v, rfl⟩ | ⟨a, v, -, rfl⟩ | ⟨a, -, rfl⟩ | rfl | herr := hcases
  · exact .inl ⟨rfl, rfl, rfl⟩
  · exact .inl ⟨rfl, rfl, rfl⟩
  · exact .inl ⟨rfl, rfl, rfl⟩
  · exact .inl ⟨rfl, rfl, rfl⟩
  · exact .inr herr

/-- Every step answers a state, under the same configuration; it keeps status and fault too, or halts a RUNNING machine. -/
theorem step_control (s : State) :
    ∃ t, step s = .next t ∧ t.cfg = s.cfg ∧
      (SameControl s t ∨ (s.status = .running ∧ t.status = .halted)) := by
  obtain ⟨-, hstep⟩ | ⟨hrun, -, hstep⟩ | ⟨w, c, hrun, -, -, hstep⟩ | ⟨w, i, hrun, -, -, hstep⟩ := step_cases s
  · exact ⟨s, hstep, rfl, .inl ⟨rfl, rfl, rfl⟩⟩
  · exact ⟨s.haltClean, hstep, rfl, .inr ⟨hrun, rfl⟩⟩
  · exact ⟨s.raise c, hstep, rfl, .inr ⟨hrun, rfl⟩⟩
  · obtain ⟨t, hexec, hsame | ⟨c, rfl⟩⟩ := exec_sameControl_or_raise i s
    · exact ⟨t, hstep.trans hexec, hsame.cfg, .inl hsame⟩
    · exact ⟨s.raise c, hstep.trans hexec, rfl, .inr ⟨hrun, rfl⟩⟩

/-- Settles O19: by `step_control`, a step that does not keep status and fault halts a machine that was RUNNING. -/
theorem everyStepAnswersAState : Obligations.EveryStepAnswersAState := by
  intro s
  obtain ⟨t, hstep, hcfg, hsame | ⟨hrun, hhalt⟩⟩ := step_control s
  · exact ⟨t, hstep, hcfg, fun ht => hsame.status.symm.trans ht, fun _ hne => absurd hsame.fault hne⟩
  · exact ⟨t, hstep, hcfg, fun _ => hrun, fun _ _ => hhalt⟩

/-- Settles O25: by induction on the number of steps, each of which keeps the configuration. -/
theorem parametersNeverChange : Obligations.ParametersNeverChange := by
  intro s t k hrun
  induction k generalizing s with
  | zero =>
    cases hrun
    rfl
  | succ k ih =>
    obtain ⟨u, hstep, hcfg, -⟩ := step_control s
    rw [run_succ k hstep] at hrun
    exact (ih u hrun).trans hcfg

/-! ## The word fetched -/

/-- Every instruction of the OP class writes a value back to the word's `rd`. -/
theorem exec_decodeOp {w : Word} {i : Instr} (h : decodeOp w = .ok i) (s : State) :
    ∃ v, exec i s = .next (s.writeBack (rdField w) v) := by
  unfold decodeOp at h
  split at h <;> cases h <;> exact ⟨_, rfl⟩

/-- Every instruction of the OP-IMM class writes a value back to the word's `rd`. -/
theorem exec_decodeOpImm (w : Word) (s : State) :
    ∃ v, exec (decodeOpImm w) s = .next (s.writeBack (rdField w) v) := by
  unfold decodeOpImm
  split <;> exact ⟨_, rfl⟩

theorem immGen_store {w : Word} (h : opcode w = 0b0100011#7) : immGen w = sext12 (sGroup w) := by
  simp [immGen, h]

theorem immGen_branch {w : Word} (h : opcode w = 0b1100011#7) : immGen w = branchOffset (bGroup w) := by
  simp [immGen, h]

/-- What running a fetched word `w` in state `s` may leave, in terms of the word's own fields and immediate (40_datapath.md R104 to
R108; 60_exceptions.md R166). -/
inductive WordEffect (s : State) (w : Word) : State → Prop
  | raised (c : Cause) : WordEffect s w (s.raise c)
  | wroteBack (hstore : opcode w ≠ 0b0100011#7) (hbranch : opcode w ≠ 0b1100011#7) (v : Word) :
      WordEffect s w (s.writeBack (rdField w) v)
  | stored (hop : opcode w = 0b0100011#7) :
      WordEffect s w (s.storeWord (s.readReg (rs1Field w) + immGen w) (s.readReg (rs2Field w))).advancePc
  | taken (hop : opcode w = 0b1100011#7) (heq : s.readReg (rs1Field w) = s.readReg (rs2Field w)) :
      WordEffect s w (s.jump (s.pc + immGen w))
  | notTaken (hop : opcode w = 0b1100011#7) (hne : s.readReg (rs1Field w) ≠ s.readReg (rs2Field w)) :
      WordEffect s w s.advancePc

/-- The instruction a word decodes to has one of the word's effects: by class, LW, SW and BEQ in their two or three cases. -/
theorem exec_wordEffect {strict : Bool} {w : Word} {i : Instr} (hdec : decode strict w = .ok i) (s : State) :
    ∃ t, exec i s = .next t ∧ WordEffect s w t := by
  obtain ⟨hloose, -⟩ := decode_ok_iff.mp hdec
  obtain ⟨hop, hw⟩ | ⟨hop, hw⟩ | ⟨hop, hw⟩ | ⟨hop, hw⟩ | ⟨hop, hw⟩ | ⟨-, hw⟩ := decodeLoose_cases w
  all_goals rw [hw] at hloose
  · obtain ⟨v, hexec⟩ := exec_decodeOp hloose s
    exact ⟨_, hexec, .wroteBack (by simp [hop]) (by simp [hop]) v⟩
  all_goals cases hloose
  · obtain ⟨v, hexec⟩ := exec_decodeOpImm w s
    exact ⟨_, hexec, .wroteBack (by simp [hop]) (by simp [hop]) v⟩
  · refine ⟨_, exec_lw .., ?_⟩
    cases s.accessError (s.dataAddress (rs1Field w) (iGroup w)) with
    | some c => exact .raised c
    | none => exact .wroteBack (by simp [hop]) (by simp [hop]) _
  · refine ⟨_, exec_sw .., ?_⟩
    have haddr : s.dataAddress (rs1Field w) (sGroup w) = s.readReg (rs1Field w) + immGen w := by
      rw [immGen_store hop]
      rfl
    rw [haddr]
    cases s.accessError (s.readReg (rs1Field w) + immGen w) with
    | some c => exact .raised c
    | none => exact .stored hop
  · refine ⟨_, exec_beq .., ?_⟩
    have htarget : s.branchTarget (bGroup w) = s.pc + immGen w := by
      rw [immGen_branch hop]
      rfl
    rw [htarget]
    split_ifs with heq hmis
    · exact .raised _
    · exact .taken hop heq
    · exact .notTaken hop heq

/-- A RUNNING machine's step on a fetched word has one of the word's effects; a word that does not decode raises. -/
theorem step_wordEffect {s t : State} {w : Word} (hrun : s.status = .running) (hfetch : s.fetch = some w)
    (hstep : step s = .next t) : WordEffect s w t := by
  cases hdec : decode s.cfg.strict w with
  | error c =>
    rw [step_undecoded hrun hfetch hdec] at hstep
    cases hstep
    exact .raised c
  | ok i =>
    obtain ⟨t', hexec, heffect⟩ := exec_wordEffect hdec s
    rw [step_decoded hrun hfetch hdec, hexec] at hstep
    cases hstep
    exact heffect

/-! ## The pc after a step -/

/-- The pc after a word's effect: kept by an error, else the branch target for a branch of equal registers, else pc + 4. -/
theorem WordEffect.pc {s t : State} {w : Word} (h : WordEffect s w t) :
    (t.status = .halted ∧ t.pc = s.pc) ∨ (t.status = s.status ∧
      t.pc = if opcode w = 0b1100011#7 ∧ s.readReg (rs1Field w) = s.readReg (rs2Field w) then s.pc + immGen w
        else s.pc + 4#32) := by
  cases h with
  | raised c => exact .inl ⟨rfl, rfl⟩
  | wroteBack hstore hbranch v => exact .inr ⟨rfl, (if_neg fun h => hbranch h.1).symm⟩
  | stored hop => exact .inr ⟨rfl, by simp [hop]⟩
  | taken hop heq => exact .inr ⟨rfl, (if_pos ⟨hop, heq⟩).symm⟩
  | notTaken hop hne => exact .inr ⟨rfl, (if_neg fun h => hne h.2).symm⟩

/-- Settles O23: a HALTED machine stays, a miss keeps the pc, and a fetched word moves it as `WordEffect.pc` says. -/
theorem pcAfterAStep : Obligations.PcAfterAStep := by
  intro s t hstep
  cases hrun : s.status with
  | halted =>
    rw [step_halted hrun] at hstep
    cases hstep
    exact ⟨nofun, fun _ => rfl⟩
  | running =>
    cases hfetch : s.fetch with
    | none =>
      rw [step_miss hrun hfetch] at hstep
      cases hstep
      exact ⟨fun _ => nofun, fun _ => rfl⟩
    | some w =>
      obtain ⟨hstatus, hpc⟩ | ⟨hstatus, hpc⟩ := (step_wordEffect hrun hfetch hstep).pc
      · exact ⟨fun _ ht => absurd (hstatus.symm.trans ht) nofun, fun _ => hpc⟩
      · exact ⟨fun _ _ => ⟨w, rfl, hpc⟩, fun ht => absurd (hrun.symm.trans (hstatus.symm.trans ht)) nofun⟩

/-! ## What a step may write -/

/-- Writing back leaves every register but `rd`. -/
theorem readReg_writeBack_other (s : State) {rd r : RegIdx} (v : Word) (h : r ≠ rd) :
    (s.writeBack rd v).readReg r = s.readReg r := by
  rw [readReg_writeBack, if_neg h]
  split_ifs with h0
  · rw [h0, readReg_zero]
  · rfl

/-- Storing a word leaves every byte outside its four. -/
theorem readByte_storeWord_outside {s : State} (hwf : s.dmem.wf) {addr : Word} (v : Word) {a : Nat}
    (ha : a < addr.toNat ∨ addr.toNat + 4 ≤ a) : (s.storeWord addr v).dmem.readByte a = s.dmem.readByte a := by
  rw [storeWord_dmem, Memory.readByte_writeWord hwf, if_neg (by omega)]

/-- Settles O24: of a word's effects only the write-back writes a register, and only the store writes the memory. -/
theorem whatAWordMayWrite : Obligations.WhatAWordMayWrite := by
  intro s t w hwf hrun hfetch hstep
  cases step_wordEffect hrun hfetch hstep with
  | wroteBack hstore hbranch v =>
    exact ⟨fun _ => readReg_writeBack_other s v, fun h => absurd h (not_or.mpr ⟨hstore, hbranch⟩),
      fun _ _ => rfl, fun _ _ => rfl⟩
  | stored hop => exact ⟨fun _ _ => rfl, fun _ _ => rfl, absurd hop, fun _ => readByte_storeWord_outside hwf _⟩
  | raised | taken | notTaken => exact ⟨fun _ _ => rfl, fun _ _ => rfl, fun _ _ => rfl, fun _ _ => rfl⟩

end Sys2Proof.Machine
end

section
/-!
The byte order of the data memory (20_memory.md R36, R37): the dump shows it, and no step depends on it. Two machines that differ
only in it hold the same words, every access to the data memory is of a whole aligned word, so every operation keeps them the same.
-/

namespace Sys2Proof.Machine

/-! ## Bytes of a word -/

/-- The bytes of the word of four bytes are those four, in either order. -/
theorem byteAt_wordOf (o : ByteOrder) (b0 b1 b2 b3 : Byte) :
    byteAt o (wordOf o b0 b1 b2 b3) 0 = b0 ∧ byteAt o (wordOf o b0 b1 b2 b3) 1 = b1 ∧
      byteAt o (wordOf o b0 b1 b2 b3) 2 = b2 ∧ byteAt o (wordOf o b0 b1 b2 b3) 3 = b3 := by
  have h0 := b0.isLt
  have h1 := b1.isLt
  have h2 := b2.isLt
  have h3 := b3.isLt
  refine ⟨?_, ?_, ?_, ?_⟩ <;> apply BitVec.eq_of_toNat_eq <;> cases o
  all_goals
    simp only [byteAt, wordOf, BitVec.extractLsb'_toNat, append_toNat, Nat.shiftRight_eq_div_pow]
    omega

/-- The byte at offset k of a word read is the memory's byte there, in either order. -/
theorem byteAt_readWord (o : ByteOrder) (m : Memory) (a : Nat) {k : Nat} (hk : k < 4) :
    byteAt o (m.readWord o a) k = m.readByte (a + k) := by
  obtain ⟨h0, h1, h2, h3⟩ :=
    byteAt_wordOf o (m.readByte a) (m.readByte (a + 1)) (m.readByte (a + 2)) (m.readByte (a + 3))
  match k, hk with
  | 0, _ => exact h0
  | 1, _ => exact h1
  | 2, _ => exact h2
  | 3, _ => exact h3

/-- Settles O53: a dumped byte is the byte at its offset of the word read (`byteAt_readWord`). -/
theorem dumpShowsBytesInOrder : Obligations.DumpShowsBytesInOrder := by
  intro s addr k _ hsize hk
  have hdump : s.dumpByte (addr.toNat + k) = some (byteAt s.cfg.byteOrder (s.loadWord addr) k) := by
    rw [State.dumpByte, if_pos (by omega), State.loadWord, byteAt_readWord _ _ _ hk]
  exact hdump

/-! ## Memories that hold the same words -/

/-- Memory `m` read in order `o` and memory `m'` read in order `o'` hold the same word at every aligned address. -/
def SameWords (o : ByteOrder) (m : Memory) (o' : ByteOrder) (m' : Memory) : Prop :=
  ∀ b, b % 4 = 0 → m'.readWord o' b = m.readWord o b

/-- An aligned store changes the word at its address and no other aligned one. -/
theorem Memory.readWord_writeWord_aligned {m : Memory} (hm : m.wf) (o : ByteOrder) {a b : Nat} (v : Word)
    (ha : a % 4 = 0) (hb : b % 4 = 0) :
    (m.writeWord o a v).readWord o b = if b = a then v else m.readWord o b := by
  split_ifs with hab
  · rw [hab, Memory.readWord_writeWord_same hm]
  · exact Memory.readWord_writeWord_other hm o v (by omega)

section Memories

variable {o o' : ByteOrder} {m m' : Memory}

theorem SameWords.writeWord (h : SameWords o m o' m') (hm : m.wf) (hm' : m'.wf) {a : Nat} (ha : a % 4 = 0) (v : Word) :
    SameWords o (m.writeWord o a v) o' (m'.writeWord o' a v) := by
  intro b hb
  rw [Memory.readWord_writeWord_aligned hm o v ha hb, Memory.readWord_writeWord_aligned hm' o' v ha hb, h b hb]

theorem SameWords.writeWords (h : SameWords o m o' m') (hm : m.wf) (hm' : m'.wf) {a : Nat} (ha : a % 4 = 0)
    (vs : List Word) : SameWords o (m.writeWords o a vs) o' (m'.writeWords o' a vs) := by
  induction vs generalizing m m' a with
  | nil => exact h
  | cons v vs ih =>
    exact ih (h.writeWord hm hm' ha v) (Memory.wf_writeWord hm o a v) (Memory.wf_writeWord hm' o' a v) (by omega)

end Memories

/-- The empty memory holds zero words in either order. -/
theorem sameWords_nil (o o' : ByteOrder) : SameWords o [] o' [] := fun b _ =>
  (Memory.readWord_nil o' b).trans (Memory.readWord_nil o b).symm

/-! ## What related machines read alike -/

section Related

variable {s t : State} (h : SameButOrder s t)

include h

theorem SameButOrder.imem : t.cfg.imem = s.cfg.imem := (congrArg Config.imem h.cfg :)

theorem SameButOrder.dmemSize : t.cfg.dmemSize = s.cfg.dmemSize := (congrArg Config.dmemSize h.cfg :)

theorem SameButOrder.strict : t.cfg.strict = s.cfg.strict := (congrArg Config.strict h.cfg :)

theorem SameButOrder.readReg (r : RegIdx) : t.readReg r = s.readReg r := congrArg (RegFile.read · r) h.regs

theorem SameButOrder.dataAddress (base : RegIdx) (imm : BitVec 12) :
    t.dataAddress base imm = s.dataAddress base imm := by
  rw [State.dataAddress, h.readReg, State.dataAddress]

theorem SameButOrder.branchTarget (off : BitVec 12) : t.branchTarget off = s.branchTarget off :=
  congrArg (· + branchOffset off) h.pc

theorem SameButOrder.fetch : t.fetch = s.fetch := by
  rw [State.fetch, State.fetch, imemAt, imemAt, h.imem, h.pc]

theorem SameButOrder.accessError (a : Word) : t.accessError a = s.accessError a := by
  rw [State.accessError, State.accessError, h.dmemSize]

theorem SameButOrder.loadWord {a : Word} (ha : a.toNat % 4 = 0) : t.loadWord a = s.loadWord a := h.words a.toNat ha

/-! ## Each operation keeps machines related -/

theorem SameButOrder.advancePc : SameButOrder s.advancePc t.advancePc where
  cfg := h.cfg
  regs := h.regs
  pc := congrArg (· + 4#32) h.pc
  status := h.status
  fault := h.fault
  words := h.words

theorem SameButOrder.writeReg (rd : RegIdx) (v : Word) : SameButOrder (s.writeReg rd v) (t.writeReg rd v) where
  cfg := h.cfg
  regs := congrArg (RegFile.write · true rd v) h.regs
  pc := h.pc
  status := h.status
  fault := h.fault
  words := h.words

theorem SameButOrder.writeBack (rd : RegIdx) (v : Word) : SameButOrder (s.writeBack rd v) (t.writeBack rd v) :=
  (h.writeReg rd v).advancePc

theorem SameButOrder.storeWord (hs : s.dmem.wf) (ht : t.dmem.wf) {a : Word} (ha : a.toNat % 4 = 0) (v : Word) :
    SameButOrder (s.storeWord a v) (t.storeWord a v) where
  cfg := h.cfg
  regs := h.regs
  pc := h.pc
  status := h.status
  fault := h.fault
  words := SameWords.writeWord h.words hs ht ha v

theorem SameButOrder.jump (target : Word) : SameButOrder (s.jump target) (t.jump target) where
  cfg := h.cfg
  regs := h.regs
  pc := rfl
  status := h.status
  fault := h.fault
  words := h.words

theorem SameButOrder.raise (c : Cause) : SameButOrder (s.raise c) (t.raise c) where
  cfg := h.cfg
  regs := h.regs
  pc := h.pc
  status := rfl
  fault := rfl
  words := h.words

theorem SameButOrder.haltClean : SameButOrder s.haltClean t.haltClean where
  cfg := h.cfg
  regs := h.regs
  pc := h.pc
  status := rfl
  fault := h.fault
  words := h.words

end Related

/-! ## Instructions and steps keep machines related -/

/-- Two outcomes that answer related states. -/
def SameOutcome (r r' : Host.Outcome State Fault Refusal) : Prop :=
  ∃ s t, r = .next s ∧ r' = .next t ∧ SameButOrder s t

theorem SameButOrder.next {s t : State} (h : SameButOrder s t) : SameOutcome (.next s) (.next t) :=
  ⟨s, t, rfl, rfl, h⟩

section Related

variable {s t : State} (h : SameButOrder s t)

include h

theorem SameButOrder.execRegReg (code : AluCode) (rd rs1 rs2 : RegIdx) :
    SameOutcome (execRegReg code rd rs1 rs2 s) (execRegReg code rd rs1 rs2 t) := by
  rw [Machine.execRegReg, Machine.execRegReg, h.readReg, h.readReg]
  exact (h.writeBack _ _).next

theorem SameButOrder.execRegImm (code : AluCode) (rd rs1 : RegIdx) (imm : BitVec 12) :
    SameOutcome (execRegImm code rd rs1 imm s) (execRegImm code rd rs1 imm t) := by
  rw [Machine.execRegImm, Machine.execRegImm, h.readReg]
  exact (h.writeBack _ _).next

/-- The word loaded is the same, the address of an admitted access being aligned. -/
theorem SameButOrder.execLw (rd rs1 : RegIdx) (f3 : BitVec 3) (imm : BitVec 12) :
    SameOutcome (execLw rd rs1 f3 imm s) (execLw rd rs1 f3 imm t) := by
  rw [execLw_eq, execLw_eq, h.dataAddress, h.accessError]
  cases hacc : s.accessError (s.dataAddress rs1 imm) with
  | some c => exact (h.raise c).next
  | none =>
    obtain ⟨haligned, -⟩ := (accessError_none_iff s _).mp hacc
    rw [h.loadWord haligned]
    exact (h.writeBack _ _).next

theorem SameButOrder.execSw (hs : s.dmem.wf) (ht : t.dmem.wf) (rs1 rs2 : RegIdx) (f3 : BitVec 3) (imm : BitVec 12) :
    SameOutcome (execSw rs1 rs2 f3 imm s) (execSw rs1 rs2 f3 imm t) := by
  rw [execSw_eq, execSw_eq, h.dataAddress, h.accessError, h.readReg]
  cases hacc : s.accessError (s.dataAddress rs1 imm) with
  | some c => exact (h.raise c).next
  | none =>
    obtain ⟨haligned, -⟩ := (accessError_none_iff s _).mp hacc
    exact (h.storeWord hs ht haligned _).advancePc.next

theorem SameButOrder.execBeq (rs1 rs2 : RegIdx) (f3 : BitVec 3) (off : BitVec 12) :
    SameOutcome (execBeq rs1 rs2 f3 off s) (execBeq rs1 rs2 f3 off t) := by
  rw [execBeq_eq, execBeq_eq, h.readReg, h.readReg, h.branchTarget]
  split_ifs
  · exact (h.raise _).next
  · exact (h.jump _).next
  · exact h.advancePc.next

theorem SameButOrder.exec (hs : s.dmem.wf) (ht : t.dmem.wf) (i : Instr) : SameOutcome (exec i s) (exec i t) := by
  cases i with
  | add | sub | sll | slt | sltu | xor | srl | sra | or | and => exact h.execRegReg ..
  | addi | slti | sltiu | xori | ori | andi | slli | srli => exact h.execRegImm ..
  | lw rd rs1 f3 imm => exact h.execLw rd rs1 f3 imm
  | sw rs1 rs2 f3 imm => exact h.execSw hs ht rs1 rs2 f3 imm
  | beq rs1 rs2 f3 off => exact h.execBeq rs1 rs2 f3 off

/-- Related machines are HALTED together, miss together, fetch the same word and decode it alike. -/
theorem SameButOrder.step (hs : s.dmem.wf) (ht : t.dmem.wf) : SameOutcome (step s) (step t) := by
  obtain ⟨hhalt, hstep⟩ | ⟨hrun, hmiss, hstep⟩ | ⟨w, c, hrun, hfetch, hdec, hstep⟩ |
    ⟨w, i, hrun, hfetch, hdec, hstep⟩ := step_cases s
  all_goals rw [hstep]
  · rw [step_halted (h.status.trans hhalt)]
    exact h.next
  · rw [step_miss (h.status.trans hrun) (h.fetch.trans hmiss)]
    exact h.haltClean.next
  · rw [step_undecoded (h.status.trans hrun) (h.fetch.trans hfetch) (h.strict ▸ hdec)]
    exact (h.raise c).next
  · rw [step_decoded (h.status.trans hrun) (h.fetch.trans hfetch) (h.strict ▸ hdec)]
    exact h.exec hs ht i

end Related

/-- Reset under either order lays out DMEM_INIT as the same words. -/
theorem resetWith_sameButOrder (c : Config) (o : ByteOrder) :
    SameButOrder (State.resetWith c) (State.resetWith { c with byteOrder := o }) where
  cfg := rfl
  regs := rfl
  pc := rfl
  status := rfl
  fault := rfl
  words := (sameWords_nil c.byteOrder o).writeWords Memory.wf_nil Memory.wf_nil rfl c.dmemInit

/-- Settles O51: every step keeps the machines related (`SameButOrder.step`), and reset starts them so. -/
theorem byteOrderIsUnobservable : Obligations.ByteOrderIsUnobservable := by
  refine ⟨fun s t s' hs ht h hstep => ?_, resetWith_sameButOrder⟩
  obtain ⟨u, t', hu, ht', hsame⟩ := h.step hs ht
  obtain rfl : u = s' := Host.Outcome.next.inj (hu.symm.trans hstep)
  exact ⟨t', ht', hsame⟩

end Sys2Proof.Machine
end

section
/-!
The decoder and the encoder against each other: class by class, what the decoder answers and what the encoder gives back
(30_encoding.md R52, R60 to R69).
-/

namespace Sys2Proof.Machine

/-! ## The decoder's classes -/

section Classes

variable {w : Word}

theorem decodeLoose_op (h : opcode w = 0b0110011#7) : decodeLoose w = decodeOp w := by simp [decodeLoose, h]

theorem decodeLoose_opImm (h : opcode w = 0b0010011#7) : decodeLoose w = .ok (decodeOpImm w) := by
  simp [decodeLoose, h]

theorem decodeLoose_load (h : opcode w = 0b0000011#7) :
    decodeLoose w = .ok (.lw (rdField w) (rs1Field w) (funct3 w) (iGroup w)) := by simp [decodeLoose, h]

theorem decodeLoose_store (h : opcode w = 0b0100011#7) :
    decodeLoose w = .ok (.sw (rs1Field w) (rs2Field w) (funct3 w) (sGroup w)) := by simp [decodeLoose, h]

theorem decodeLoose_branch (h : opcode w = 0b1100011#7) :
    decodeLoose w = .ok (.beq (rs1Field w) (rs2Field w) (funct3 w) (bGroup w)) := by simp [decodeLoose, h]

end Classes

/-! ## Encoding, then decoding -/

/-- The formats put every operand where the decoder reads it, and the fixed fields where it selects by them. -/
theorem decodeLoose_encode (i : Instr) : decodeLoose (encode i) = .ok i := by
  cases i with
  | add | sub | sll | slt | sltu | xor | srl | sra | or | and => simp [encode, decodeLoose_op, decodeOp]
  | addi | slti | sltiu | xori | ori | andi | slli | srli => simp [encode, decodeLoose_opImm, decodeOpImm]
  | lw => simp [encode, decodeLoose_load]
  | sw => simp [encode, decodeLoose_store]
  | beq => simp [encode, decodeLoose_branch]

/-- Settles O2: decoding by class gives the instruction back, and the strict check passes a well-formed one. -/
theorem decodeOfEncode : Obligations.DecodeOfEncode :=
  fun _ i hwf => decode_ok_iff.mpr ⟨decodeLoose_encode i, hwf⟩

/-! ## Decoding, then encoding -/

/-- An OP word is the R format of its fields, of which `funct3` and `funct7` are the instruction's own. -/
theorem encode_of_decodeOp {w : Word} {i : Instr} (hop : opcode w = 0b0110011#7) (h : decodeOp w = .ok i) :
    encode i = w := by
  have hfields := formatR_fields w
  unfold decodeOp at h
  split at h
  case h_11 => cases h
  all_goals
    rename_i h3 h7
    cases h
    rwa [hop, h3, h7] at hfields

/-- The last arm of `decodeOpImm` is `funct3` = 111: the seven others are listed before it. -/
theorem funct3_eq_seven {f : BitVec 3} (h0 : f ≠ 0b000#3) (h1 : f ≠ 0b001#3) (h2 : f ≠ 0b010#3) (h3 : f ≠ 0b011#3)
    (h4 : f ≠ 0b100#3) (h5 : f ≠ 0b101#3) (h6 : f ≠ 0b110#3) : f = 0b111#3 := by bv_omega

/-- An OP-IMM word is the I format of its fields, of which `funct3` is the instruction's own. -/
theorem encode_decodeOpImm {w : Word} (hop : opcode w = 0b0010011#7) : encode (decodeOpImm w) = w := by
  have hfields := formatI_fields w
  unfold decodeOpImm
  split
  case h_8 h0 h1 h2 h3 h4 h5 h6 => rwa [hop, funct3_eq_seven h0 h1 h2 h3 h4 h5 h6] at hfields
  all_goals
    rename_i h3
    rwa [hop, h3] at hfields

/-- Whatever the class, a word is rebuilt from what was read off it. -/
theorem encode_of_decodeLoose {w : Word} {i : Instr} (h : decodeLoose w = .ok i) : encode i = w := by
  obtain ⟨hop, hw⟩ | ⟨hop, hw⟩ | ⟨hop, hw⟩ | ⟨hop, hw⟩ | ⟨hop, hw⟩ | ⟨-, hw⟩ := decodeLoose_cases w
  all_goals rw [hw] at h
  · exact encode_of_decodeOp hop h
  all_goals cases h
  · exact encode_decodeOpImm hop
  · rw [encode, ← hop, formatI_fields]
  · rw [encode, ← hop, formatS_fields]
  · rw [encode, ← hop, formatB_fields]

/-- Settles O3: the word is rebuilt, and the decoder answers well-formed instructions only. -/
theorem encodeOfDecode : Obligations.EncodeOfDecode := by
  intro strict w i h
  obtain ⟨hloose, hwf⟩ := decode_ok_iff.mp h
  exact ⟨encode_of_decodeLoose hloose, hwf⟩

end Sys2Proof.Machine
end

section
/-!
The opcode table (30_encoding.md R62): its rows share no word, and cover the words that decode, strictly the strict ones.
-/

namespace Sys2Proof.Machine

/-- The table lists the rows of the instructions, one for each mnemonic. -/
theorem mem_opcodeTable {r : OpcodeRow} : r ∈ opcodeTable ↔ ∃ i : Instr, i.row = r := by
  constructor
  · intro h
    simp only [opcodeTable, List.cons_append, List.nil_append, List.mem_cons, List.not_mem_nil, or_false] at h
    rcases h with h | h | h | h | h | h | h | h | h | h | h | h | h | h | h | h | h | h | h | h | h <;>
      exact ⟨_, h.symm⟩
  · rintro ⟨i, rfl⟩
    cases i <;> simp [opcodeTable, Instr.row]

/-- The word of an instruction is of its row, and of the row's canonical form exactly when the instruction is canonical. -/
theorem rowMatch (i : Instr) : Laws.RowMatch.Statement i := by
  cases i with
  | add => exact Laws.RowMatch.add ..
  | sub => exact Laws.RowMatch.sub ..
  | sll => exact Laws.RowMatch.sll ..
  | slt => exact Laws.RowMatch.slt ..
  | sltu => exact Laws.RowMatch.sltu ..
  | xor => exact Laws.RowMatch.xor ..
  | srl => exact Laws.RowMatch.srl ..
  | sra => exact Laws.RowMatch.sra ..
  | or => exact Laws.RowMatch.or ..
  | and => exact Laws.RowMatch.and ..
  | addi => exact Laws.RowMatch.addi ..
  | slti => exact Laws.RowMatch.slti ..
  | sltiu => exact Laws.RowMatch.sltiu ..
  | xori => exact Laws.RowMatch.xori ..
  | ori => exact Laws.RowMatch.ori ..
  | andi => exact Laws.RowMatch.andi ..
  | slli => exact Laws.RowMatch.slli ..
  | srli => exact Laws.RowMatch.srli ..
  | lw => exact Laws.RowMatch.lw ..
  | sw => exact Laws.RowMatch.sw ..
  | beq => exact Laws.RowMatch.beq ..

/-! ## What the three masks compare -/

section Masks

variable {w v : Word}

theorem fields_of_op_mask (h : w &&& 0xFE00707F = v &&& 0xFE00707F) :
    funct7 w = funct7 v ∧ funct3 w = funct3 v ∧ opcode w = opcode v := by
  rw [mask_opcode_functs, mask_opcode_functs, formatR_inj] at h
  obtain ⟨h7, -, -, h3, -, hop⟩ := h
  exact ⟨h7, h3, hop⟩

theorem fields_of_opImm_mask (h : w &&& 0x0000707F = v &&& 0x0000707F) :
    funct3 w = funct3 v ∧ opcode w = opcode v := by
  rw [mask_opcode_funct3, mask_opcode_funct3, formatR_inj] at h
  obtain ⟨-, -, -, h3, -, hop⟩ := h
  exact ⟨h3, hop⟩

theorem opcode_of_opcode_mask (h : w &&& 0x0000007F = v &&& 0x0000007F) : opcode w = opcode v := by
  rw [mask_opcode, mask_opcode, formatR_inj] at h
  obtain ⟨-, -, -, -, -, hop⟩ := h
  exact hop

end Masks

/-! ## The rows and the decoder -/

/-- A word of an instruction's row decodes, to an instruction of the same row: in the bits that the row fixes it agrees with the
instruction's own word, and the decoder selects by no others. -/
theorem decodeLoose_of_covers {i : Instr} {w : Word} (h : i.row.covers w) :
    ∃ j, decodeLoose w = .ok j ∧ j.row = i.row := by
  have hmask : w &&& i.row.mask = encode i &&& i.row.mask := h.trans (rowMatch i).1.symm
  cases i with
  | add | sub | sll | slt | sltu | xor | srl | sra | or | and =>
    obtain ⟨h7, h3, hop⟩ := fields_of_op_mask hmask
    simp only [encode, funct7_formatR, funct3_formatR, opcode_formatR] at h7 h3 hop
    simp only [decodeLoose_op hop, decodeOp, h3, h7]
    exact ⟨_, rfl, rfl⟩
  | addi | slti | sltiu | xori | ori | andi | slli | srli =>
    obtain ⟨h3, hop⟩ := fields_of_opImm_mask hmask
    simp only [encode, funct3_formatI, opcode_formatI] at h3 hop
    simp only [decodeLoose_opImm hop, decodeOpImm, h3]
    exact ⟨_, rfl, rfl⟩
  | lw => exact ⟨_, decodeLoose_load ((opcode_of_opcode_mask hmask).trans (opcode_formatI ..)), rfl⟩
  | sw => exact ⟨_, decodeLoose_store ((opcode_of_opcode_mask hmask).trans (opcode_formatS ..)), rfl⟩
  | beq => exact ⟨_, decodeLoose_branch ((opcode_of_opcode_mask hmask).trans (opcode_formatB ..)), rfl⟩

/-- A word that decodes is of its instruction's row, and canonically so exactly when the instruction is canonical. -/
theorem covers_of_decodeLoose {w : Word} {i : Instr} (h : decodeLoose w = .ok i) :
    i.row.covers w ∧ (i.row.coversStrict w ↔ i.canonical = true) :=
  encode_of_decodeLoose h ▸ rowMatch i

/-- A word is of a row of the table exactly when it decodes to an instruction of that row. -/
theorem covers_iff_decodeLoose {r : OpcodeRow} (hr : r ∈ opcodeTable) (w : Word) :
    r.covers w ↔ ∃ i, decodeLoose w = .ok i ∧ i.row = r := by
  obtain ⟨i, rfl⟩ := mem_opcodeTable.mp hr
  constructor
  · exact decodeLoose_of_covers
  · rintro ⟨j, hdec, hrow⟩
    exact hrow ▸ (covers_of_decodeLoose hdec).1

/-- Settles O4: a word's row is that of the instruction it decodes to (`covers_iff_decodeLoose`), which is one at most; the strict
column is the canonical form (`covers_of_decodeLoose`). -/
theorem rowsAreTheDecodableWords : Obligations.RowsAreTheDecodableWords := by
  intro w
  refine ⟨?_, ?_, ?_, ?_⟩
  · intro r hr r' hr' hcov hcov'
    obtain ⟨i, hdec, rfl⟩ := (covers_iff_decodeLoose hr w).mp hcov
    obtain ⟨j, hdec', rfl⟩ := (covers_iff_decodeLoose hr' w).mp hcov'
    obtain rfl : i = j := Except.ok.inj (hdec.symm.trans hdec')
    rfl
  · rw [decode_false]
    constructor
    · rintro ⟨r, hr, hcov⟩
      obtain ⟨i, hdec, -⟩ := (covers_iff_decodeLoose hr w).mp hcov
      exact ⟨i, hdec⟩
    · rintro ⟨i, hdec⟩
      exact ⟨i.row, mem_opcodeTable.mpr ⟨i, rfl⟩, (covers_of_decodeLoose hdec).1⟩
  · constructor
    · rintro ⟨r, hr, hcov, hstrict⟩
      obtain ⟨i, hdec, rfl⟩ := (covers_iff_decodeLoose hr w).mp hcov
      exact ⟨i, decode_ok_iff.mpr ⟨hdec, (covers_of_decodeLoose hdec).2.mp hstrict⟩⟩
    · rintro ⟨i, hdec⟩
      obtain ⟨hloose, hcanonical⟩ := decode_ok_iff.mp hdec
      obtain ⟨hcov, hstrict⟩ := covers_of_decodeLoose hloose
      exact ⟨i.row, mem_opcodeTable.mpr ⟨i, rfl⟩, hcov, hstrict.mpr hcanonical⟩
  · intro i hdec
    rw [decode_false] at hdec
    exact ⟨mem_opcodeTable.mpr ⟨i, rfl⟩, (covers_of_decodeLoose hdec).1⟩

end Sys2Proof.Machine
end

section
/-!
The words that do not decode (30_encoding.md R63, R64, R67): which they are, by cause, and what a step that fetches one leaves
(60_exceptions.md R161, R162, R166).
-/

namespace Sys2Proof.Machine

/-! ## Which words are refused -/

/-- The decoder refuses a word by class, or, under `STRICT_RV32I`, for the instruction it stands for. -/
theorem decode_error_iff {strict : Bool} {w : Word} {c : Cause} :
    decode strict w = .error c ↔ decodeLoose w = .error c ∨
      c = .unsupportedFunct ∧ ∃ i, decodeLoose w = .ok i ∧ i.wellFormed strict = false := by
  unfold decode
  cases hloose : decodeLoose w with
  | error c' => simp
  | ok i =>
    cases hwf : i.wellFormed strict with
    | false => simp [hwf, eq_comm (a := c)]
    | true => simp [hwf]

/-- The OP class refuses exactly the pairs outside the ten. -/
theorem decodeOp_error_iff {w : Word} {c : Cause} :
    decodeOp w = .error c ↔ c = .unsupportedFunct ∧ (funct3 w, funct7 w) ∉ supportedFuncts := by
  unfold decodeOp supportedFuncts
  split
  case h_11 => simp_all [eq_comm]
  all_goals
    rename_i h3 h7
    simp [h3, h7]

/-- Decoding by class raises UNSUPPORTED_OPCODE exactly outside the five classes. -/
theorem decodeLoose_unsupportedOpcode_iff {w : Word} :
    decodeLoose w = .error .unsupportedOpcode ↔ opcode w ∉ supportedOpcodes := by
  obtain ⟨hop, hw⟩ | ⟨hop, hw⟩ | ⟨hop, hw⟩ | ⟨hop, hw⟩ | ⟨hop, hw⟩ | ⟨hop, hw⟩ := decodeLoose_cases w
  · simp [hw, hop, decodeOp_error_iff, supportedOpcodes]
  all_goals simp [hw, hop, supportedOpcodes]

/-- Decoding by class raises UNSUPPORTED_FUNCT exactly for the pairs of the OP class outside the ten. -/
theorem decodeLoose_unsupportedFunct_iff {w : Word} :
    decodeLoose w = .error .unsupportedFunct ↔ opcode w = 0b0110011#7 ∧ (funct3 w, funct7 w) ∉ supportedFuncts := by
  obtain ⟨hop, hw⟩ | ⟨hop, hw⟩ | ⟨hop, hw⟩ | ⟨hop, hw⟩ | ⟨hop, hw⟩ | ⟨hop, hw⟩ := decodeLoose_cases w
  · simp [hw, hop, decodeOp_error_iff]
  all_goals simp [hw, hop]

/-- An instruction of the OP class has one form only. -/
theorem canonical_of_decodeOp {w : Word} {i : Instr} (h : decodeOp w = .ok i) : i.canonical = true := by
  unfold decodeOp at h
  split at h <;> cases h <;> rfl

/-- An instruction of the OP-IMM class has another form only if it is a shift with `instr[31:25]` set. -/
theorem canonical_decodeOpImm (w : Word) : (decodeOpImm w).canonical = false ↔
    (funct3 w = 0b001#3 ∨ funct3 w = 0b101#3) ∧ funct7 w ≠ 0b0000000#7 := by
  unfold decodeOpImm
  split <;> simp_all [Instr.canonical, iGroup_high]

/-- The words that stand for a non-canonical instruction are those of R67. -/
theorem refusedWhenStrict_iff {w : Word} :
    RefusedWhenStrict w ↔ ∃ i, decodeLoose w = .ok i ∧ i.canonical = false := by
  unfold RefusedWhenStrict
  obtain ⟨hop, hw⟩ | ⟨hop, hw⟩ | ⟨hop, hw⟩ | ⟨hop, hw⟩ | ⟨hop, hw⟩ | ⟨hop, hw⟩ := decodeLoose_cases w
  · rw [hw]
    constructor
    · simp [hop]
    · rintro ⟨i, hdec, hform⟩
      simp [canonical_of_decodeOp hdec] at hform
  · simp [hw, hop, canonical_decodeOpImm]
  all_goals simp [hw, hop, Instr.canonical]

/-- With `STRICT_RV32I` = true well formed is canonical. -/
@[simp] theorem wellFormed_true (i : Instr) : i.wellFormed true = i.canonical := rfl

theorem decode_unsupportedOpcode_iff {strict : Bool} {w : Word} :
    decode strict w = .error .unsupportedOpcode ↔ opcode w ∉ supportedOpcodes := by
  simp [decode_error_iff, decodeLoose_unsupportedOpcode_iff]

theorem decode_unsupportedFunct_iff {strict : Bool} {w : Word} : decode strict w = .error .unsupportedFunct ↔
    (opcode w = 0b0110011#7 ∧ (funct3 w, funct7 w) ∉ supportedFuncts) ∨ (strict = true ∧ RefusedWhenStrict w) := by
  rw [decode_error_iff, decodeLoose_unsupportedFunct_iff, refusedWhenStrict_iff]
  cases strict <;> simp

/-! ## What fetching one does -/

/-- Taking an error is the whole effect of a step that errs (R166). -/
theorem errorStep_raise (s : State) (c : Cause) : ErrorStep s (s.raise c) c :=
  ⟨rfl, rfl, fun _ => rfl, rfl, fun _ => rfl, rfl⟩

/-- A step that fetches a word the decoder refuses takes the decoder's cause. -/
theorem errorStep_of_undecoded {s : State} {w : Word} {c : Cause} (hrun : s.status = .running)
    (hfetch : s.fetch = some w) (hdec : decode s.cfg.strict w = .error c) :
    ∃ t, step s = .next t ∧ ErrorStep s t c :=
  ⟨s.raise c, step_undecoded hrun hfetch hdec, errorStep_raise s c⟩

/-- Settles O5: decoding by class raises this cause in its last arm only, and the strict check never does. -/
theorem unsupportedOpcodeRaises : Obligations.UnsupportedOpcodeRaises :=
  ⟨fun _ _ => decode_unsupportedOpcode_iff,
    fun _ _ hrun hfetch hop => errorStep_of_undecoded hrun hfetch (decode_unsupportedOpcode_iff.mpr hop)⟩

/-- Settles O6: this cause comes from the pairs of the OP class, or from the strict check, which refuses the words of R67. -/
theorem unsupportedFunctRaises : Obligations.UnsupportedFunctRaises :=
  ⟨fun _ _ => decode_unsupportedFunct_iff,
    fun _ _ hrun hfetch hword => errorStep_of_undecoded hrun hfetch (decode_unsupportedFunct_iff.mpr hword)⟩

end Sys2Proof.Machine
end

section
/-!
Sign extension and the Immediate Generator as arithmetic (00_scope.md section 6; 30_encoding.md R54 to R59).
-/

namespace Sys2Proof.Machine

/-! ## Sign extension -/

/-- Sign extension as the formula of 00_scope.md section 6, for any width that fits a word. -/
theorem signExtend_toNat {n : Nat} (hn : n ≤ 32) (v : BitVec n) :
    (v.signExtend 32).toNat = if v.msb then 2 ^ 32 - 2 ^ n + v.toNat else v.toNat := by
  have hfits : v.toNat < 2 ^ 32 := v.isLt.trans_le (Nat.pow_le_pow_right (by decide) hn)
  rw [BitVec.toNat_signExtend, BitVec.toNat_setWidth, Nat.mod_eq_of_lt hfits]
  split_ifs <;> omega

theorem sext12_toInt (v : BitVec 12) : (sext12 v).toInt = v.toInt := BitVec.toInt_signExtend_of_le (by decide)

theorem sext13_toInt (v : BitVec 13) : (sext13 v).toInt = v.toInt := BitVec.toInt_signExtend_of_le (by decide)

theorem sext12_toNat (v : BitVec 12) :
    (sext12 v).toNat = if v.getLsbD 11 then 2 ^ 32 - 2 ^ 12 + v.toNat else v.toNat := signExtend_toNat (by decide) v

theorem sext13_toNat (v : BitVec 13) :
    (sext13 v).toNat = if v.getLsbD 12 then 2 ^ 32 - 2 ^ 13 + v.toNat else v.toNat := signExtend_toNat (by decide) v

/-- Bit 0 of a branch offset is the constant 0 (R56), and sign extension adds a multiple of 2. -/
theorem branchOffset_even (off : BitVec 12) : (branchOffset off).toNat % 2 = 0 := by
  rw [branchOffset, sext13_toNat, append_toNat]
  split_ifs <;> simp

/-- Settles O11: the library's sign extension is the spec's formula; the examples are computed. -/
theorem signExtensionKeepsValue : Obligations.SignExtensionKeepsValue :=
  ⟨fun v => ⟨sext12_toInt v, sext12_toNat v⟩, fun v => ⟨sext13_toInt v, sext13_toNat v⟩, branchOffset_even,
    by decide, by decide, by decide⟩

/-! ## The Immediate Generator -/

/-- The sign bit of each of the three groups is `instr[31]`. -/
theorem iGroup_msb (w : Word) : (iGroup w).msb = w.getLsbD 31 := by
  simp [BitVec.msb_eq_getLsbD_last, iGroup]

theorem sGroup_msb (w : Word) : (sGroup w).msb = w.getLsbD 31 := by
  simp only [BitVec.msb_eq_getLsbD_last, sGroup, BitVec.getLsbD_append, BitVec.getLsbD_extractLsb']
  simp

theorem bGroup_msb (w : Word) : (bGroup w).msb = w.getLsbD 31 := by
  simp only [BitVec.msb_eq_getLsbD_last, bGroup, BitVec.getLsbD_append, BitVec.getLsbD_extractLsb']
  simp

theorem iGroup_toNat (w : Word) : (iGroup w).toNat = w.toNat / 2 ^ 20 := by
  have := w.isLt
  simp only [iGroup, BitVec.extractLsb'_toNat, Nat.shiftRight_eq_div_pow]
  omega

theorem sGroup_toNat (w : Word) : (sGroup w).toNat = w.toNat / 2 ^ 25 * 2 ^ 5 + w.toNat / 2 ^ 7 % 2 ^ 5 := by
  have := w.isLt
  simp only [sGroup, append_toNat, BitVec.extractLsb'_toNat, Nat.shiftRight_eq_div_pow]
  omega

/-- The B group with the constant 0 below it is the 13-bit group of R56. -/
theorem bGroup_toNat (w : Word) : (bGroup w ++ 0b0#1).toNat = w.toNat / 2 ^ 31 * 2 ^ 12 +
    w.toNat / 2 ^ 7 % 2 * 2 ^ 11 + w.toNat / 2 ^ 25 % 2 ^ 6 * 2 ^ 5 + w.toNat / 2 ^ 8 % 2 ^ 4 * 2 := by
  have := w.isLt
  simp only [bGroup, append_toNat, BitVec.extractLsb'_toNat, Nat.shiftRight_eq_div_pow, BitVec.toNat_ofNat]
  omega

theorem immGen_i {w : Word} (h : opcode w = 0b0010011#7 ∨ opcode w = 0b0000011#7) : immGen w = sext12 (iGroup w) := by
  obtain h | h := h <;> simp [immGen, h]

theorem immGen_r {w : Word} (h : opcode w = 0b0110011#7) : immGen w = 0#32 := by simp [immGen, h]

/-- The signed value of a group: the group less 2^n when its sign bit is set. -/
theorem toInt_eq_sub {n : Nat} (v : BitVec n) : v.toInt = (v.toNat : Int) - (if v.msb then 2 ^ n else 0) := by
  rw [BitVec.toInt_eq_msb_cond]
  split_ifs <;> simp

/-- Settles O10: sign extension keeps the value of a group, and the sign bit of each group is `instr[31]`. -/
theorem immediateGeneratorValues : Obligations.ImmediateGeneratorValues := by
  intro w
  refine ⟨fun h => ?_, fun h => ?_, fun h => ?_, immGen_r⟩
  · rw [immGen_i h, sext12_toInt, toInt_eq_sub, iGroup_toNat, iGroup_msb]
  · rw [immGen_store h, sext12_toInt, toInt_eq_sub, sGroup_toNat, sGroup_msb]
  · rw [immGen_branch h, branchOffset, sext13_toInt, toInt_eq_sub, bGroup_toNat, BitVec.msb_append, bGroup_msb]
    rfl

end Sys2Proof.Machine
end

section
/-!
What decoding and the meanings do not look at: `STRICT_RV32I` once a word is accepted, the high bits of a shift immediate, `funct3`
outside the OP and OP-IMM classes (30_encoding.md R65 to R67); and the spec's sample words.
-/

namespace Sys2Proof.Machine

/-! ## The strict setting -/

section Loosened

variable (s : State)

@[simp] theorem loosened_readReg (r : RegIdx) : s.loosened.readReg r = s.readReg r := rfl
@[simp] theorem loosened_dataAddress (base : RegIdx) (imm : BitVec 12) :
    s.loosened.dataAddress base imm = s.dataAddress base imm := rfl
@[simp] theorem loosened_accessError (a : Word) : s.loosened.accessError a = s.accessError a := rfl
@[simp] theorem loosened_branchTarget (off : BitVec 12) : s.loosened.branchTarget off = s.branchTarget off := rfl

end Loosened

/-- No meaning consults `STRICT_RV32I`. -/
theorem exec_loosened {i : Instr} {s t : State} (h : exec i s = .next t) : exec i s.loosened = .next t.loosened := by
  cases i with
  | lw rd rs1 f3 imm =>
    rw [exec_lw] at h ⊢
    cases h
    rw [loosened_dataAddress, loosened_accessError]
    cases s.accessError (s.dataAddress rs1 imm) <;> rfl
  | sw rs1 rs2 f3 imm =>
    rw [exec_sw] at h ⊢
    cases h
    rw [loosened_dataAddress, loosened_accessError]
    cases s.accessError (s.dataAddress rs1 imm) <;> rfl
  | beq rs1 rs2 f3 off =>
    rw [exec_beq] at h ⊢
    cases h
    rw [loosened_readReg, loosened_readReg, loosened_branchTarget]
    split_ifs <;> rfl
  | _ =>
    cases h
    rfl

/-- Settles O7: a word the strict decoder accepts decodes to the same instruction without the check, and no meaning looks at the
setting. -/
theorem strictRunsAsLoose : Obligations.StrictRunsAsLoose := by
  intro s t w i hrun hfetch hdec hstep
  obtain ⟨hloose, -⟩ := decode_ok_iff.mp hdec
  rw [step_decoded hrun hfetch hdec] at hstep
  have hrun' : s.loosened.status = .running := hrun
  have hfetch' : s.loosened.fetch = some w := hfetch
  have hdec' : decode s.loosened.cfg.strict w = .ok i := (decode_false w).trans hloose
  exact (step_decoded hrun' hfetch' hdec').trans (exec_loosened hstep)

/-! ## The high bits of a shift immediate -/

/-- The shift amount of an immediate is its low five bits: sign extension adds a multiple of 32 (R89). -/
theorem shiftAmount_sext12 (imm : BitVec 12) : shiftAmount (sext12 imm) = imm.toNat % 32 := by
  rw [shiftAmount, BitVec.extractLsb'_toNat, Nat.shiftRight_zero, sext12_toNat]
  split_ifs <;> omega

/-- SLLI with its shift amount (R132). -/
theorem exec_slli (rd rs1 : RegIdx) (imm : BitVec 12) (s : State) :
    exec (.slli rd rs1 imm) s = .next (s.writeBack rd (s.readReg rs1 <<< shiftAmount (sext12 imm))) := rfl

/-- SRLI with its shift amount (R133). -/
theorem exec_srli (rd rs1 : RegIdx) (imm : BitVec 12) (s : State) :
    exec (.srli rd rs1 imm) s = .next (s.writeBack rd (s.readReg rs1 >>> shiftAmount (sext12 imm))) := rfl

/-- Settles O8: `funct3` alone selects in the OP-IMM class, and a shift uses its immediate through the shift amount only. -/
theorem shiftImmediateIgnoresHighBits : Obligations.ShiftImmediateIgnoresHighBits := by
  refine ⟨fun w hop => ⟨_, (decode_false w).trans (decodeLoose_opImm hop)⟩, fun rd rs1 imm imm' s h => ?_⟩
  have hamount : shiftAmount (sext12 imm) = shiftAmount (sext12 imm') := by
    rw [shiftAmount_sext12, shiftAmount_sext12, h]
  rw [exec_slli, exec_slli, exec_srli, exec_srli, hamount]
  exact ⟨rfl, rfl⟩

/-! ## `funct3` of LW, SW and BEQ -/

/-- Settles O9: the three classes have one arm of the decoder each, and their meanings drop the operand `funct3`. -/
theorem funct3IgnoredByLoadStoreBranch : Obligations.Funct3IgnoredByLoadStoreBranch :=
  ⟨fun w hop => (decode_false w).trans (decodeLoose_load hop),
    fun w hop => (decode_false w).trans (decodeLoose_store hop),
    fun w hop => (decode_false w).trans (decodeLoose_branch hop),
    fun _ _ _ _ _ _ => ⟨rfl, rfl, rfl⟩⟩

/-! ## The spec's sample words -/

/-- Settles O1: the decoder run on each word. -/
theorem sampleWordsDecode : Obligations.SampleWordsDecode := by
  unfold Obligations.SampleWordsDecode
  decide

end Sys2Proof.Machine
end

section
/-!
The datapath of R100 against the machine's own step: each class of words runs through the Control Unit, the ALU control, the checks and
the multiplexers as its instruction's meaning says, and the words the decoder refuses are those the datapath refuses, for the same cause
(40_datapath.md R80 to R106).
-/

namespace Sys2Proof.Machine

/-! ## The Control Unit -/

/-- The Control Unit gives no signals outside the five classes (R83). -/
theorem controlUnit_eq_none {op : BitVec 7} (h : op ∉ supportedOpcodes) : controlUnit op = none := by
  unfold controlUnit
  split
  case h_6 => rfl
  all_goals exact absurd (by decide) h

/-- Settles O12: each class has an arm of its own, and `controlUnit_eq_none` speaks of the rest. -/
theorem controlSignalTable : Obligations.ControlSignalTable :=
  ⟨rfl, rfl, rfl, rfl, rfl, fun _ => controlUnit_eq_none⟩

/-! ## The ALU control against the decoder -/

/-- A pair of `funct3` and `funct7` that the decoder reads as an instruction of the OP class has the ALU code of that instruction. -/
theorem aluControlR_of_decodeOp {w : Word} {i : Instr} (h : decodeOp w = .ok i) :
    ∃ code, aluControlR (funct3 w) (funct7 w) = .ok code ∧
      ∀ s, exec i s = execRegReg code (rdField w) (rs1Field w) (rs2Field w) s := by
  unfold decodeOp at h
  split at h
  case h_11 => cases h
  all_goals
    rename_i h3 h7
    cases h
    rw [h3, h7]
    exact ⟨_, rfl, fun _ => rfl⟩

/-- A pair that the decoder refuses, the ALU control refuses. -/
theorem aluControlR_of_not_mem {f3 : BitVec 3} {f7 : BitVec 7} (h : (f3, f7) ∉ supportedFuncts) :
    aluControlR f3 f7 = .error .unsupportedFunct := by
  unfold aluControlR
  split
  case h_11 => rfl
  all_goals exact absurd (by decide) h

/-- The instruction of an OP-IMM word runs the code that the ALU control reads off `funct3`. -/
theorem exec_decodeOpImm_eq (w : Word) (s : State) :
    exec (decodeOpImm w) s = execRegImm (aluControlI (funct3 w)) (rdField w) (rs1Field w) (iGroup w) s := by
  unfold decodeOpImm
  split
  case h_8 h0 h1 h2 h3 h4 h5 h6 =>
    rw [funct3_eq_seven h0 h1 h2 h3 h4 h5 h6]
    rfl
  all_goals
    rename_i h3
    rw [h3]
    rfl

/-! ## The words the decoder refuses -/

/-- The words that fail the datapath's strict check are those of R67. -/
theorem nonCanonical_iff {w : Word} : nonCanonical w = true ↔ RefusedWhenStrict w := by
  unfold nonCanonical RefusedWhenStrict
  split <;> simp_all

/-- A word that the decoder accepts passes the datapath's strict check. -/
theorem strictCheck_of_decode {strict : Bool} {w : Word} {i : Instr} (h : decode strict w = .ok i) :
    (strict && nonCanonical w) = false := by
  by_contra hcheck
  rw [Bool.not_eq_false, Bool.and_eq_true, nonCanonical_iff] at hcheck
  exact nomatch h.symm.trans (decode_unsupportedFunct_iff.mpr (.inr hcheck))

/-- The decoder raises no other causes than these two (60_exceptions.md R161, R162). -/
theorem cause_of_undecoded {strict : Bool} {w : Word} {c : Cause} (hdec : decode strict w = .error c) :
    c = .unsupportedOpcode ∨ c = .unsupportedFunct := by
  obtain hloose | ⟨hc, -⟩ := decode_error_iff.mp hdec
  · obtain ⟨-, hw⟩ | ⟨-, hw⟩ | ⟨-, hw⟩ | ⟨-, hw⟩ | ⟨-, hw⟩ | ⟨-, hw⟩ := decodeLoose_cases w
    all_goals rw [hw] at hloose
    · exact .inr (decodeOp_error_iff.mp hloose).1
    all_goals cases hloose
    exact .inl rfl
  · exact .inr hc

/-! ## The datapath, class by class -/

/-- Stages 3 to 6 of R100 on the word `w`, once the signals `c` and the ALU code are known and the word is accepted. -/
def datapathExecute (w : Word) (s : State) (c : ControlSignals) (code : AluCode) : Except Cause State :=
  let out := alu (s.readReg (rs1Field w)) (mux (s.readReg (rs2Field w)) (immGen w) c.aluSrc) code
  let taken := c.branch && out.2
  let nextPc := mux (s.pc + 4#32) (s.pc + immGen w) taken
  match datapathCheck s c out.1 nextPc taken with
  | some e => .error e
  | none => .ok (datapathCommit s c (rdField w) out.1 (s.readReg (rs2Field w)) nextPc)

/-- The checks of a step that accesses the data memory, and so takes no branch, are the access check (R168). -/
theorem datapathCheck_access {s : State} {c : ControlSignals} (hmem : (c.memWrite || c.memRead) = true)
    (a nextPc : Word) : datapathCheck s c a nextPc false = s.accessError a := by
  simp [datapathCheck, State.accessError, hmem]

/-- A data access whose address the ALU forms: its checks, then its commit. -/
theorem datapathExecute_access {w : Word} {s : State} {c : ControlSignals} {code : AluCode} {a : Word}
    (hmem : (c.memWrite || c.memRead) = true) (hbranch : c.branch = false)
    (ha : aluResult code (s.readReg (rs1Field w)) (mux (s.readReg (rs2Field w)) (immGen w) c.aluSrc) = a) :
    datapathExecute w s c code = match s.accessError a with
      | some e => .error e
      | none => .ok (datapathCommit s c (rdField w) a (s.readReg (rs2Field w)) (s.pc + 4#32)) := by
  simp only [datapathExecute, hbranch, Bool.false_and, datapathCheck_access hmem, alu, ha]
  rfl

/-- A branch whose decision is the ALU's zero output: the check of the next pc, looked at only if taken, then the commit. -/
theorem datapathExecute_branch {w : Word} {s : State} {c : ControlSignals} {code : AluCode} {taken : Bool} {nextPc : Word}
    (hmem : (c.memWrite || c.memRead) = false) (hbranch : c.branch = true)
    (hzero : (alu (s.readReg (rs1Field w)) (mux (s.readReg (rs2Field w)) (immGen w) c.aluSrc) code).2 = taken)
    (hnext : mux (s.pc + 4#32) (s.pc + immGen w) taken = nextPc) :
    datapathExecute w s c code = if taken && misaligned nextPc then .error .branchTargetMisaligned
      else .ok (datapathCommit s c (rdField w)
        (alu (s.readReg (rs1Field w)) (mux (s.readReg (rs2Field w)) (immGen w) c.aluSrc) code).1
        (s.readReg (rs2Field w)) nextPc) := by
  simp only [datapathExecute, datapathCheck, hmem, hbranch, hzero, hnext, Bool.false_and, Bool.true_and]
  cases taken && misaligned nextPc <;> rfl

/-- The ALU control's refusal is the datapath's. -/
theorem datapathWord_noCode {w : Word} {s : State} {c : ControlSignals} {e : Cause}
    (hctl : controlUnit (opcode w) = some c) (hcode : aluControl c.aluOp (funct3 w) (funct7 w) = .error e) :
    datapathWord w s = .error e := by
  simp only [datapathWord, hctl, hcode]

section Stages

variable {w : Word} {s : State} {c : ControlSignals} {code : AluCode} (hctl : controlUnit (opcode w) = some c)
  (hcode : aluControl c.aluOp (funct3 w) (funct7 w) = .ok code)

include hctl hcode

/-- A word with signals, an ALU code and a form that is accepted goes on to execute. -/
theorem datapathWord_accepted (hform : (s.cfg.strict && nonCanonical w) = false) :
    datapathWord w s = datapathExecute w s c code := by
  simp only [datapathWord, hctl, hcode, hform]
  rfl

/-- A word with signals and an ALU code that the strict check refuses raises (R67). -/
theorem datapathWord_refused (hform : (s.cfg.strict && nonCanonical w) = true) :
    datapathWord w s = .error .unsupportedFunct := by
  simp only [datapathWord, hctl, hcode, hform, if_true]

end Stages

section Classes

variable {w : Word} {s : State} (hform : (s.cfg.strict && nonCanonical w) = false)

include hform

theorem orRaise_datapathWord_op {code : AluCode} (hop : opcode w = 0b0110011#7)
    (hcode : aluControlR (funct3 w) (funct7 w) = .ok code) :
    s.orRaise (datapathWord w s) = execRegReg code (rdField w) (rs1Field w) (rs2Field w) s := by
  rw [datapathWord_accepted (congrArg controlUnit hop) hcode hform]
  rfl

theorem orRaise_datapathWord_opImm (hop : opcode w = 0b0010011#7) : s.orRaise (datapathWord w s) =
    execRegImm (aluControlI (funct3 w)) (rdField w) (rs1Field w) (iGroup w) s := by
  rw [datapathWord_accepted (congrArg controlUnit hop) rfl hform, execRegImm, ← immGen_i (.inl hop)]
  rfl

/-- The data address is the ALU's sum, the value written back is the memory's. -/
theorem orRaise_datapathWord_load (hop : opcode w = 0b0000011#7) :
    s.orRaise (datapathWord w s) = execLw (rdField w) (rs1Field w) (funct3 w) (iGroup w) s := by
  have haddr : aluResult .add (s.readReg (rs1Field w)) (immGen w) = s.dataAddress (rs1Field w) (iGroup w) := by
    rw [immGen_i (.inr hop), State.dataAddress]
  rw [datapathWord_accepted (congrArg controlUnit hop) rfl hform, datapathExecute_access rfl rfl haddr, execLw_eq]
  cases s.accessError (s.dataAddress (rs1Field w) (iGroup w)) <;> rfl

/-- The data address is the ALU's sum, the value stored is register B. -/
theorem orRaise_datapathWord_store (hop : opcode w = 0b0100011#7) :
    s.orRaise (datapathWord w s) = execSw (rs1Field w) (rs2Field w) (funct3 w) (sGroup w) s := by
  have haddr : aluResult .add (s.readReg (rs1Field w)) (immGen w) = s.dataAddress (rs1Field w) (sGroup w) := by
    rw [immGen_store hop, State.dataAddress]
  rw [datapathWord_accepted (congrArg controlUnit hop) rfl hform, datapathExecute_access rfl rfl haddr, execSw_eq]
  cases s.accessError (s.dataAddress (rs1Field w) (sGroup w)) <;> rfl

/-- The branch decision is the ALU's zero output under SUB; the target is checked when the branch is taken. -/
theorem orRaise_datapathWord_branch (hop : opcode w = 0b1100011#7) :
    s.orRaise (datapathWord w s) = execBeq (rs1Field w) (rs2Field w) (funct3 w) (bGroup w) s := by
  rw [datapathWord_accepted (congrArg controlUnit hop) rfl hform, execBeq, State.branchTarget, ← immGen_branch hop]
  cases hzero : (alu (s.readReg (rs1Field w)) (s.readReg (rs2Field w)) .sub).2 with
  | false =>
    rw [datapathExecute_branch rfl rfl hzero rfl]
    rfl
  | true =>
    rw [datapathExecute_branch (nextPc := s.pc + immGen w) rfl rfl hzero rfl]
    cases misaligned (s.pc + immGen w) <;> rfl

end Classes

/-! ## The datapath against the decoder -/

/-- A word the decoder accepts leaves in the datapath what its instruction leaves. -/
theorem orRaise_datapathWord {w : Word} {i : Instr} {s : State} (hdec : decode s.cfg.strict w = .ok i) :
    s.orRaise (datapathWord w s) = exec i s := by
  have hform := strictCheck_of_decode hdec
  obtain ⟨hloose, -⟩ := decode_ok_iff.mp hdec
  obtain ⟨hop, hw⟩ | ⟨hop, hw⟩ | ⟨hop, hw⟩ | ⟨hop, hw⟩ | ⟨hop, hw⟩ | ⟨-, hw⟩ := decodeLoose_cases w
  all_goals rw [hw] at hloose
  · obtain ⟨code, hcode, hexec⟩ := aluControlR_of_decodeOp hloose
    rw [hexec, orRaise_datapathWord_op hform hop hcode]
  all_goals cases hloose
  · rw [exec_decodeOpImm_eq, orRaise_datapathWord_opImm hform hop]
  · exact orRaise_datapathWord_load hform hop
  · exact orRaise_datapathWord_store hform hop
  · exact orRaise_datapathWord_branch hform hop

/-- A word of R67 passes the Control Unit and the ALU control: it is of a class whose ALU code always exists. -/
theorem signals_of_refusedWhenStrict {w : Word} (h : RefusedWhenStrict w) :
    ∃ c code, controlUnit (opcode w) = some c ∧ aluControl c.aluOp (funct3 w) (funct7 w) = .ok code := by
  obtain ⟨hop, -⟩ | ⟨hop, -⟩ | ⟨hop, -⟩ | ⟨hop, -⟩ := h
  all_goals exact ⟨_, _, congrArg controlUnit hop, rfl⟩

/-- A word the decoder refuses raises the decoder's cause in the datapath. -/
theorem datapathWord_undecoded {w : Word} {c : Cause} {s : State} (hdec : decode s.cfg.strict w = .error c) :
    datapathWord w s = .error c := by
  obtain rfl | rfl := cause_of_undecoded hdec
  · have hop := decode_unsupportedOpcode_iff.mp hdec
    simp only [datapathWord, controlUnit_eq_none hop]
  · obtain ⟨hop, hpair⟩ | ⟨hstrict, hword⟩ := decode_unsupportedFunct_iff.mp hdec
    · exact datapathWord_noCode (congrArg controlUnit hop) (aluControlR_of_not_mem hpair)
    · obtain ⟨c, code, hctl, hcode⟩ := signals_of_refusedWhenStrict hword
      exact datapathWord_refused hctl hcode (Bool.and_eq_true_iff.mpr ⟨hstrict, nonCanonical_iff.mpr hword⟩)

/-! ## The step of R100 -/

/-- The datapath's step on a fetched word. -/
theorem datapathStep_fetched {s : State} {w : Word} (hrun : s.status = .running) (hfetch : s.fetch = some w) :
    Host.Outcome.next (datapathStep s) = s.orRaise (datapathWord w s) := by
  simp only [datapathStep, hrun, hfetch]
  cases datapathWord w s <;> rfl

/-- Settles O14: by the cases of a step, on a fetched word by `orRaise_datapathWord` if it decodes, else by `datapathWord_undecoded`. -/
theorem stepIsTheDatapath : Obligations.StepIsTheDatapath := by
  intro s
  obtain ⟨hhalt, hstep⟩ | ⟨hrun, hmiss, hstep⟩ | ⟨w, c, hrun, hfetch, hdec, hstep⟩ | ⟨w, i, hrun, hfetch, hdec, hstep⟩ :=
    step_cases s
  all_goals rw [hstep]
  · simp only [datapathStep, hhalt]
  · simp only [datapathStep, hrun, hmiss]
  · rw [datapathStep_fetched hrun hfetch, datapathWord_undecoded hdec, orRaise_error]
  · rw [datapathStep_fetched hrun hfetch, orRaise_datapathWord hdec]

end Sys2Proof.Machine
end

section
/-!
The ALU's formulas (40_datapath.md R87 to R91).
-/

namespace Sys2Proof.Machine

/-- The low five bits of operand B, as a number (R89). -/
theorem shiftAmount_eq (b : Word) : shiftAmount b = b.toNat % 32 := by
  rw [shiftAmount, BitVec.extractLsb'_toNat, Nat.shiftRight_zero]

/-- A difference of words is the difference of their signed values, wrapped (R90). -/
theorem sub_eq_ofInt (a b : Word) : a - b = BitVec.ofInt 32 (a.toInt - b.toInt) := by
  apply BitVec.eq_of_toInt_eq
  rw [BitVec.toInt_sub, BitVec.toInt_ofInt]

/-- A left shift multiplies by a power of two, wrapped. -/
theorem shiftLeft_eq_ofNat (a : Word) (n : Nat) : a <<< n = BitVec.ofNat 32 (a.toNat * 2 ^ n) := by
  apply BitVec.eq_of_toNat_eq
  rw [BitVec.toNat_shiftLeft, Nat.shiftLeft_eq, BitVec.toNat_ofNat]

/-- A logical right shift divides the unsigned value by a power of two. -/
theorem ushiftRight_eq_ofNat (a : Word) (n : Nat) : a >>> n = BitVec.ofNat 32 (a.toNat / 2 ^ n) := by
  rw [← Nat.shiftRight_eq_div_pow, ← BitVec.toNat_ushiftRight, BitVec.ofNat_toNat, BitVec.setWidth_eq]

/-- An arithmetic right shift divides the signed value by a power of two, rounding down. -/
theorem sshiftRight_eq_ofInt (a : Word) (n : Nat) : a.sshiftRight n = BitVec.ofInt 32 (a.toInt / 2 ^ n) := by
  rw [BitVec.sshiftRight_eq, Int.shiftRight_eq_div_pow, Nat.cast_pow, Nat.cast_ofNat]

/-- The zero output is true exactly when the result is 0 (R88). -/
theorem alu_zero_iff (a b : Word) (code : AluCode) : (alu a b code).2 = true ↔ (alu a b code).1 = 0#32 :=
  beq_iff_eq

/-- A truth value as the choice between the words 1 and 0 (R91). -/
theorem truthWord_decide (p : Prop) [Decidable p] : truthWord (decide p) = if p then 1#32 else 0#32 := by
  simp only [truthWord, decide_eq_true_eq]

/-- Settles O13: each code by its own formula, the shifts at the amount `b.toNat % 32`. -/
theorem aluComputesItsFormulas : Obligations.AluComputesItsFormulas := by
  intro a b
  simp only [aluResult, shiftAmount_eq]
  refine ⟨BitVec.add_def .., sub_eq_ofInt a b, fun i _ => ?_, shiftLeft_eq_ofNat a _, ushiftRight_eq_ofNat a _,
    sshiftRight_eq_ofInt a _, truthWord_decide _, truthWord_decide _, fun code => ⟨rfl, alu_zero_iff a b code⟩⟩
  exact ⟨BitVec.getLsbD_and, BitVec.getLsbD_or, BitVec.getLsbD_xor⟩

end Sys2Proof.Machine
end

section
/-!
The sequencer as the host sees it: a RUNNING step runs the decoded instruction, a HALTED machine stays, and the result is read off the
state (40_datapath.md R98 to R102, R107).
-/

namespace Sys2Proof.Machine

/-- Settles O15: `step_decoded`. -/
theorem stepRunsTheDecodedInstruction : Obligations.StepRunsTheDecodedInstruction :=
  fun _ _ _ => step_decoded

/-- Settles O16: by induction on the number of steps, each of which leaves the HALTED state itself. -/
theorem haltedIsTerminal : Obligations.HaltedIsTerminal := by
  intro s k hhalt
  induction k with
  | zero => rfl
  | succ k ih => rw [run_succ k (step_halted hhalt), ih]

/-- The result by status and fault latch: CONTINUE, END and ERROR are told apart by them (R107). -/
theorem result_iff (s : State) : (s.result = .continues ↔ s.status = .running) ∧
    (s.result = .ends ↔ s.status = .halted ∧ s.fault = none) ∧
    ∀ c, s.result = .error c ↔ s.status = .halted ∧ s.fault = some c := by
  unfold State.result
  cases s.status with
  | running => simp
  | halted => cases s.fault <;> simp

/-- Settles O54: every step answers a state (`step_control`), and its result is CONTINUE exactly when it is RUNNING. -/
theorem advanceReportsTheResult : Obligations.AdvanceReportsTheResult := by
  refine ⟨fun s => ?_, result_iff⟩
  obtain ⟨t, hstep, -⟩ := step_control s
  obtain ⟨hcontinues, -⟩ := result_iff t
  exact ⟨t, hstep, by simp only [advance, hstep, hcontinues]⟩

end Sys2Proof.Machine
end

section
/-!
The OP class, register-register arithmetic (41_r_type.md R110 to R121): its rows of the opcode table, and what its ten instructions
leave.
-/

namespace Sys2Proof.Machine

/-! ## What the ten have in common -/

/-- Writing back is a register step: `rd` takes the value, the pc moves on, and nothing else changes. -/
theorem registerStep_writeBack (s : State) (rd : RegIdx) (v : Word) : RegisterStep s (s.writeBack rd v) rd v where
  dest := by rw [readReg_writeBack, if_pos rfl]
  others _ hr := readReg_writeBack_other s v hr
  pc := rfl
  memory _ := rfl
  control := ⟨rfl, rfl, rfl⟩

/-- An instruction of the OP class completes, and leaves the ALU's result in `rd` (R110, R121). -/
theorem execRegReg_registerStep {code : AluCode} {rd rs1 rs2 : RegIdx} {s : State} {v : Word}
    (hv : aluResult code (s.readReg rs1) (s.readReg rs2) = v) :
    ∃ t, execRegReg code rd rs1 rs2 s = .next t ∧ RegisterStep s t rd v :=
  ⟨_, rfl, hv ▸ registerStep_writeBack s rd _⟩

/-- The mask of the OP rows compares opcode, `funct3` and `funct7`. -/
theorem op_mask_iff {w : Word} {f7 : BitVec 7} {f3 : BitVec 3} {op : BitVec 7} :
    w &&& 0xFE00707F = formatR f7 0 0 f3 0 op ↔ funct7 w = f7 ∧ funct3 w = f3 ∧ opcode w = op := by
  rw [mask_opcode_functs, formatR_inj]
  simp only [true_and]

/-- A row of the OP class: each of its words is the word of the row's instruction with the word's own registers, so it decodes to
that instruction, which has one form only. -/
theorem rowDecodes_op {pattern : Word} {f7 : BitVec 7} {f3 : BitVec 3} (build : RegIdx → RegIdx → RegIdx → Instr)
    (hencode : ∀ rd rs1 rs2, encode (build rd rs1 rs2) = formatR f7 rs2 rs1 f3 rd 0b0110011#7)
    (hpattern : pattern = formatR f7 0 0 f3 0 0b0110011#7) :
    RowDecodes 0xFE00707F#32 pattern 0xFE00707F#32 pattern (fun w => build (rdField w) (rs1Field w) (rs2Field w)) := by
  intro w hrow
  obtain ⟨h7, h3, hop⟩ := op_mask_iff.mp (hrow.trans hpattern)
  have hword : encode (build (rdField w) (rs1Field w) (rs2Field w)) = w := by
    rw [hencode, ← h7, ← h3, ← hop, formatR_fields]
  have hloose : decodeLoose w = .ok (build (rdField w) (rs1Field w) (rs2Field w)) :=
    (congrArg decodeLoose hword).symm.trans (decodeLoose_encode _)
  have hcanonical := canonical_of_decodeOp ((decodeLoose_op hop).symm.trans hloose)
  rw [if_pos hrow]
  exact ⟨(decode_false w).trans hloose, decode_ok_iff.mpr ⟨hloose, hcanonical⟩⟩

/-! ## The instructions -/

/-- Settles O27: a sum of words is the sum of their unsigned values, wrapped (R111). -/
theorem addWritesItsResult : Obligations.AddWritesItsResult :=
  ⟨rowDecodes_op .add (fun _ _ _ => rfl) rfl, fun _ _ _ _ => execRegReg_registerStep (code := .add) (BitVec.add_def ..)⟩

/-- Settles O28: by `sub_eq_ofInt`, which reads both operands signed (R112). -/
theorem subWritesItsResult : Obligations.SubWritesItsResult :=
  ⟨rowDecodes_op .sub (fun _ _ _ => rfl) rfl, fun _ _ _ _ => execRegReg_registerStep (code := .sub) (sub_eq_ofInt ..)⟩

/-- Settles O29: by the shift formula of `aluComputesItsFormulas` (R113). -/
theorem sllWritesItsResult : Obligations.SllWritesItsResult := by
  refine ⟨rowDecodes_op .sll (fun _ _ _ => rfl) rfl, fun rd rs1 rs2 s => execRegReg_registerStep (code := .sll) ?_⟩
  obtain ⟨-, -, -, hsll, -⟩ := aluComputesItsFormulas (s.readReg rs1) (s.readReg rs2)
  exact hsll

/-- Settles O30: the signed comparison, as the choice between the words 1 and 0 (R114). -/
theorem sltWritesItsResult : Obligations.SltWritesItsResult :=
  ⟨rowDecodes_op .slt (fun _ _ _ => rfl) rfl, fun _ _ _ _ => execRegReg_registerStep (code := .slt) (truthWord_decide _)⟩

/-- Settles O31: the unsigned comparison, as the choice between the words 1 and 0 (R115). -/
theorem sltuWritesItsResult : Obligations.SltuWritesItsResult :=
  ⟨rowDecodes_op .sltu (fun _ _ _ => rfl) rfl, fun _ _ _ _ => execRegReg_registerStep (code := .sltu) (truthWord_decide _)⟩

/-- Settles O32: the ALU's own operation, bit by bit (R116). -/
theorem xorWritesItsResult : Obligations.XorWritesItsResult :=
  ⟨rowDecodes_op .xor (fun _ _ _ => rfl) rfl, fun _ _ _ _ => execRegReg_registerStep (code := .xor) rfl⟩

/-- Settles O33: by the shift formula of `aluComputesItsFormulas`; `funct7` alone tells it from SRA (R117). -/
theorem srlWritesItsResult : Obligations.SrlWritesItsResult := by
  refine ⟨rowDecodes_op .srl (fun _ _ _ => rfl) rfl, fun rd rs1 rs2 s => execRegReg_registerStep (code := .srl) ?_⟩
  obtain ⟨-, -, -, -, hsrl, -⟩ := aluComputesItsFormulas (s.readReg rs1) (s.readReg rs2)
  exact hsrl

/-- Settles O34: by the shift formula of `aluComputesItsFormulas`, which rounds down (R118). -/
theorem sraWritesItsResult : Obligations.SraWritesItsResult := by
  refine ⟨rowDecodes_op .sra (fun _ _ _ => rfl) rfl, fun rd rs1 rs2 s => execRegReg_registerStep (code := .sra) ?_⟩
  obtain ⟨-, -, -, -, -, hsra, -⟩ := aluComputesItsFormulas (s.readReg rs1) (s.readReg rs2)
  exact hsra

/-- Settles O35: the ALU's own operation, bit by bit (R119). -/
theorem orWritesItsResult : Obligations.OrWritesItsResult :=
  ⟨rowDecodes_op .or (fun _ _ _ => rfl) rfl, fun _ _ _ _ => execRegReg_registerStep (code := .or) rfl⟩

/-- Settles O36: the ALU's own operation, bit by bit (R120). -/
theorem andWritesItsResult : Obligations.AndWritesItsResult :=
  ⟨rowDecodes_op .and (fun _ _ _ => rfl) rfl, fun _ _ _ _ => execRegReg_registerStep (code := .and) rfl⟩

end Sys2Proof.Machine
end

section
/-!
The OP-IMM class, register-immediate arithmetic (42_i_type_arith.md R125 to R134): its rows of the opcode table, and what its eight
instructions leave.
-/

namespace Sys2Proof.Machine

/-! ## What the eight have in common -/

/-- An instruction of the OP-IMM class completes, and leaves in `rd` the ALU's result on `rs1` and the sign-extended immediate
(R125, R134). -/
theorem execRegImm_registerStep {code : AluCode} {rd rs1 : RegIdx} {imm : BitVec 12} {s : State} {v : Word}
    (hv : aluResult code (s.readReg rs1) (sext12 imm) = v) :
    ∃ t, execRegImm code rd rs1 imm s = .next t ∧ RegisterStep s t rd v :=
  ⟨_, rfl, hv ▸ registerStep_writeBack s rd _⟩

/-- Under `STRICT_RV32I` a word that decodes by class is accepted exactly in its row's canonical form (R67). -/
theorem decode_true_of_decodeLoose {w : Word} {i : Instr} (h : decodeLoose w = .ok i) : decode true w =
    if w &&& i.row.strictMask = i.row.strictPattern then .ok i else .error .unsupportedFunct := by
  obtain ⟨-, hstrict⟩ := covers_of_decodeLoose h
  simp only [decode, h, wellFormed_true]
  exact if_congr hstrict.symm rfl rfl

/-- A row of the OP-IMM class: its mask fixes opcode and `funct3`, so each of its words is the word of the row's instruction with the
word's own registers and immediate. -/
theorem rowDecodes_opImm {name : String} {pattern strictMask : Word} {f3 : BitVec 3}
    (build : RegIdx → RegIdx → BitVec 12 → Instr)
    (hencode : ∀ rd rs1 imm, encode (build rd rs1 imm) = formatI imm rs1 f3 rd 0b0010011#7)
    (hrow : ∀ rd rs1 imm, (build rd rs1 imm).row = ⟨name, 0x0000707F, pattern, strictMask, pattern⟩) :
    RowDecodes 0x0000707F#32 pattern strictMask pattern (fun w => build (rdField w) (rs1Field w) (iGroup w)) := by
  intro w hw
  obtain ⟨hcovers, -⟩ := rowMatch (build 0 0 0)
  rw [OpcodeRow.covers, hrow, hencode] at hcovers
  obtain ⟨h3, hop⟩ := fields_of_opImm_mask (hw.trans hcovers.symm)
  rw [funct3_formatI] at h3
  rw [opcode_formatI] at hop
  have hword : encode (build (rdField w) (rs1Field w) (iGroup w)) = w := by
    rw [hencode, ← h3, ← hop, formatI_fields]
  have hloose : decodeLoose w = .ok (build (rdField w) (rs1Field w) (iGroup w)) :=
    (congrArg decodeLoose hword).symm.trans (decodeLoose_encode _)
  have hstrict := decode_true_of_decodeLoose hloose
  rw [hrow] at hstrict
  exact ⟨(decode_false w).trans hloose, hstrict⟩

/-! ## The instructions -/

/-- Settles O37: a sum of words is the sum of their unsigned values, wrapped (R126). -/
theorem addiWritesItsResult : Obligations.AddiWritesItsResult :=
  ⟨rowDecodes_opImm .addi (fun _ _ _ => rfl) (fun _ _ _ => rfl),
    fun _ _ _ _ => execRegImm_registerStep (code := .add) (BitVec.add_def ..)⟩

/-- Settles O38: the signed comparison; sign extension keeps the immediate's signed value (R127). -/
theorem sltiWritesItsResult : Obligations.SltiWritesItsResult :=
  ⟨rowDecodes_opImm .slti (fun _ _ _ => rfl) (fun _ _ _ => rfl),
    fun _ _ imm _ => execRegImm_registerStep (code := .slt) (sext12_toInt imm ▸ truthWord_decide _)⟩

/-- Settles O39: the unsigned comparison with the immediate after its sign extension (R128). -/
theorem sltiuWritesItsResult : Obligations.SltiuWritesItsResult :=
  ⟨rowDecodes_opImm .sltiu (fun _ _ _ => rfl) (fun _ _ _ => rfl),
    fun _ _ _ _ => execRegImm_registerStep (code := .sltu) (truthWord_decide _)⟩

/-- Settles O40: the ALU's own operation, bit by bit (R129). -/
theorem xoriWritesItsResult : Obligations.XoriWritesItsResult :=
  ⟨rowDecodes_opImm .xori (fun _ _ _ => rfl) (fun _ _ _ => rfl),
    fun _ _ _ _ => execRegImm_registerStep (code := .xor) rfl⟩

/-- Settles O41: the ALU's own operation, bit by bit (R130). -/
theorem oriWritesItsResult : Obligations.OriWritesItsResult :=
  ⟨rowDecodes_opImm .ori (fun _ _ _ => rfl) (fun _ _ _ => rfl),
    fun _ _ _ _ => execRegImm_registerStep (code := .or) rfl⟩

/-- Settles O42: the ALU's own operation, bit by bit (R131). -/
theorem andiWritesItsResult : Obligations.AndiWritesItsResult :=
  ⟨rowDecodes_opImm .andi (fun _ _ _ => rfl) (fun _ _ _ => rfl),
    fun _ _ _ _ => execRegImm_registerStep (code := .and) rfl⟩

/-- Settles O43: a left shift multiplies by a power of two, the amount being the immediate's low five bits (R132). -/
theorem slliWritesItsResult : Obligations.SlliWritesItsResult := by
  refine ⟨rowDecodes_opImm .slli (fun _ _ _ => rfl) (fun _ _ _ => rfl),
    fun rd rs1 imm s => execRegImm_registerStep (code := .sll) ?_⟩
  rw [aluResult, shiftAmount_sext12, shiftLeft_eq_ofNat]

/-- Settles O44: a logical right shift divides by a power of two, the amount being the immediate's low five bits (R133). -/
theorem srliWritesItsResult : Obligations.SrliWritesItsResult := by
  refine ⟨rowDecodes_opImm .srli (fun _ _ _ => rfl) (fun _ _ _ => rfl),
    fun rd rs1 imm s => execRegImm_registerStep (code := .srl) ?_⟩
  rw [aluResult, shiftAmount_sext12, ushiftRight_eq_ofNat]

end Sys2Proof.Machine
end

section
/-!
The LOAD and STORE classes (43_load_store.md R140 to R143): their rows of the opcode table, what an admitted and a refused access
leave, and which steps of a run change a word of the data memory.
-/

namespace Sys2Proof.Machine

/-! ## Rows of which the mask fixes the opcode alone -/

/-- The mask of the LOAD, STORE and BRANCH rows compares the opcode. -/
theorem opcode_mask_iff {w : Word} {op : BitVec 7} : w &&& 0x0000007F = formatR 0 0 0 0 0 op ↔ opcode w = op := by
  rw [mask_opcode, formatR_inj]
  simp only [true_and]

/-- A row of a class with one instruction: the opcode selects it, and `STRICT_RV32I` looks at `funct3` besides (R66, R67). -/
theorem rowDecodes_opcode {name : String} {pattern strictPattern : Word} {op : BitVec 7} {build : Word → Instr}
    (hpattern : pattern = formatR 0 0 0 0 0 op) (hloose : ∀ {w}, opcode w = op → decodeLoose w = .ok (build w))
    (hrow : ∀ w, (build w).row = ⟨name, 0x0000007F, pattern, 0x0000707F, strictPattern⟩) :
    RowDecodes 0x0000007F#32 pattern 0x0000707F#32 strictPattern build := by
  intro w hw
  have hdec := hloose (opcode_mask_iff.mp (hw.trans hpattern))
  have hstrict := decode_true_of_decodeLoose hdec
  rw [hrow] at hstrict
  exact ⟨(decode_false w).trans hdec, hstrict⟩

/-! ## LW and SW, admitted and refused -/

section Access

variable {s : State} {rs1 : RegIdx} {imm : BitVec 12}

/-- An admitted LW is a register step that leaves the word in `rd` (R141). -/
theorem exec_lw_registerStep (h : s.accessError (s.dataAddress rs1 imm) = none) (rd : RegIdx) (f3 : BitVec 3) :
    ∃ t, exec (.lw rd rs1 f3 imm) s = .next t ∧ RegisterStep s t rd (s.loadWord (s.dataAddress rs1 imm)) :=
  ⟨_, by rw [exec_lw, h], registerStep_writeBack s rd _⟩

theorem exec_lw_errorStep {c : Cause} (h : s.accessError (s.dataAddress rs1 imm) = some c) (rd : RegIdx)
    (f3 : BitVec 3) : ∃ t, exec (.lw rd rs1 f3 imm) s = .next t ∧ ErrorStep s t c :=
  ⟨_, by rw [exec_lw, h], errorStep_raise s c⟩

theorem exec_sw_admitted (h : s.accessError (s.dataAddress rs1 imm) = none) (rs2 : RegIdx) (f3 : BitVec 3) :
    exec (.sw rs1 rs2 f3 imm) s = .next (s.storeWord (s.dataAddress rs1 imm) (s.readReg rs2)).advancePc := by
  rw [exec_sw, h]

theorem exec_sw_errorStep {c : Cause} (h : s.accessError (s.dataAddress rs1 imm) = some c) (rs2 : RegIdx)
    (f3 : BitVec 3) : ∃ t, exec (.sw rs1 rs2 f3 imm) s = .next t ∧ ErrorStep s t c :=
  ⟨_, by rw [exec_sw, h], errorStep_raise s c⟩

end Access

/-- Storing a word in a canonical memory and moving on is a store step. -/
theorem storeStep_storeWord {s : State} (hwf : s.dmem.wf) (addr v : Word) :
    StoreStep s (s.storeWord addr v).advancePc addr v where
  stored := loadWord_storeWord_same hwf addr v
  bytes k hk := by
    rw [advancePc_dmem, storeWord_dmem, Memory.readByte_writeWord hwf, if_pos (by omega), Nat.add_sub_cancel_left]
  outside _ ha := readByte_storeWord_outside hwf v ha
  regs _ := rfl
  pc := rfl
  control := ⟨rfl, rfl, rfl⟩

/-- Settles O45: the row by its opcode, the three cases by what the access check answers. -/
theorem lwLoadsOrRaises : Obligations.LwLoadsOrRaises := by
  refine ⟨rowDecodes_opcode rfl decodeLoose_load fun _ => rfl, fun rd rs1 f3 imm s => ⟨rfl, ?_, ?_, ?_⟩⟩
  · exact fun haligned hlt => exec_lw_registerStep ((accessError_none_iff ..).mpr ⟨haligned, hlt⟩) rd f3
  · exact fun hmis => exec_lw_errorStep ((accessError_misaligned_iff ..).mpr hmis) rd f3
  · exact fun haligned hle => exec_lw_errorStep ((accessError_outOfRange_iff ..).mpr ⟨haligned, hle⟩) rd f3

/-- Settles O46: the row by its opcode, the three cases by what the access check answers. -/
theorem swStoresOrRaises : Obligations.SwStoresOrRaises := by
  refine ⟨rowDecodes_opcode rfl decodeLoose_store fun _ => rfl, fun rs1 rs2 f3 imm s hwf => ⟨rfl, ?_, ?_, ?_⟩⟩
  · exact fun haligned hlt => ⟨_, exec_sw_admitted ((accessError_none_iff ..).mpr ⟨haligned, hlt⟩) rs2 f3,
      storeStep_storeWord hwf _ _⟩
  · exact fun hmis => exec_sw_errorStep ((accessError_misaligned_iff ..).mpr hmis) rs2 f3
  · exact fun haligned hle => exec_sw_errorStep ((accessError_outOfRange_iff ..).mpr ⟨haligned, hle⟩) rs2 f3

/-! ## What a step does to the data memory -/

/-- An instruction leaves the data memory as it is, unless it is a SW that is admitted. -/
theorem exec_dmem {i : Instr} {s t : State} (h : exec i s = .next t) : t.dmem = s.dmem ∨
    ∃ rs1 rs2 f3 imm, i = .sw rs1 rs2 f3 imm ∧ s.accessError (s.dataAddress rs1 imm) = none ∧
      t.dmem = (s.storeWord (s.dataAddress rs1 imm) (s.readReg rs2)).dmem := by
  cases i with
  | lw rd rs1 f3 imm =>
    cases (exec_lw rd rs1 f3 imm s).symm.trans h
    cases s.accessError (s.dataAddress rs1 imm) <;> exact .inl rfl
  | sw rs1 rs2 f3 imm =>
    cases hacc : s.accessError (s.dataAddress rs1 imm) with
    | some c =>
      rw [exec_sw, hacc] at h
      cases h
      exact .inl rfl
    | none =>
      rw [exec_sw_admitted hacc] at h
      cases h
      exact .inr ⟨rs1, rs2, f3, imm, rfl, hacc, rfl⟩
  | beq rs1 rs2 f3 off =>
    cases (exec_beq rs1 rs2 f3 off s).symm.trans h
    split_ifs <;> exact .inl rfl
  | _ =>
    cases h
    exact .inl rfl

/-- A step leaves the data memory as it is, unless it runs a SW to an aligned address. -/
theorem step_dmem {s t : State} (h : step s = .next t) : t.dmem = s.dmem ∨
    ∃ addr v, s.runsStoreTo addr ∧ addr.toNat % 4 = 0 ∧ t.dmem = (s.storeWord addr v).dmem := by
  obtain ⟨-, hs⟩ | ⟨-, -, hs⟩ | ⟨w, c, -, -, -, hs⟩ | ⟨w, i, hrun, hfetch, hdec, hs⟩ := step_cases s
  all_goals rw [hs] at h
  case inr.inr.inr =>
    obtain hsame | ⟨rs1, rs2, f3, imm, rfl, hacc, hstored⟩ := exec_dmem h
    · exact .inl hsame
    · obtain ⟨haligned, -⟩ := (accessError_none_iff ..).mp hacc
      exact .inr ⟨_, _, ⟨hrun, w, rs1, rs2, f3, imm, hfetch, hdec, rfl⟩, haligned, hstored⟩
  all_goals
    cases h
    exact .inl rfl

theorem step_cfg {s t : State} (h : step s = .next t) : t.cfg = s.cfg :=
  parametersNeverChange s t 1 (run_succ 0 h)

/-- The word at an address is read off the data memory in the configured byte order, and off nothing else. -/
theorem loadWord_congr {s t : State} (hcfg : t.cfg = s.cfg) (hdmem : t.dmem = s.dmem) (a : Word) :
    t.loadWord a = s.loadWord a := by
  rw [State.loadWord, hcfg, hdmem, State.loadWord]

/-- The access check looks at the configuration alone. -/
theorem accessError_congr {s t : State} (hcfg : t.cfg = s.cfg) (a : Word) : t.accessError a = s.accessError a := by
  rw [State.accessError, hcfg, State.accessError]

/-- A step keeps the memory canonical. -/
theorem step_dmem_wf {s t : State} (hwf : s.dmem.wf) (h : step s = .next t) : t.dmem.wf := by
  obtain hsame | ⟨addr, v, -, -, hstored⟩ := step_dmem h
  · rwa [hsame]
  · rw [hstored]
    exact Memory.wf_writeWord hwf ..

/-- A step that runs no SW to an aligned address leaves the word there. -/
theorem step_loadWord {s t : State} {a : Word} (hwf : s.dmem.wf) (ha : a.toNat % 4 = 0) (h : step s = .next t)
    (hno : ¬ s.runsStoreTo a) : t.loadWord a = s.loadWord a := by
  have hcfg := step_cfg h
  obtain hsame | ⟨addr, v, hruns, haligned, hstored⟩ := step_dmem h
  · exact loadWord_congr hcfg hsame a
  · have hne : a ≠ addr := fun e => hno (e ▸ hruns)
    calc t.loadWord a = (s.storeWord addr v).loadWord a := loadWord_congr (s := s.storeWord addr v) hcfg hstored a
      _ = s.loadWord a := loadWord_storeWord_other hwf v haligned ha hne

/-! ## Runs without a SW to an address -/

/-- The first of k + 1 steps is one of them. -/
theorem NoStoreDuring.first {k : Nat} {s : State} {a : Word} (h : NoStoreDuring (k + 1) s a) : ¬ s.runsStoreTo a :=
  h 0 s (Nat.succ_pos k) rfl

/-- So are the k steps after it. -/
theorem NoStoreDuring.rest {k : Nat} {s t : State} {a : Word} (h : NoStoreDuring (k + 1) s a)
    (hstep : step s = .next t) : NoStoreDuring k t a :=
  fun j m hj hrun => h (j + 1) m (Nat.succ_lt_succ hj) ((run_succ j hstep).trans hrun)

/-- A run none of whose steps runs a SW to an aligned address leaves the word there (R143): by induction on the number of steps. -/
theorem run_loadWord {k : Nat} {s t : State} {a : Word} (hwf : s.dmem.wf) (ha : a.toNat % 4 = 0)
    (hrun : core.run k s = .next t) (hno : NoStoreDuring k s a) : t.loadWord a = s.loadWord a := by
  induction k generalizing s with
  | zero =>
    cases hrun
    rfl
  | succ k ih =>
    obtain ⟨u, hstep, -⟩ := step_control s
    rw [run_succ k hstep] at hrun
    calc t.loadWord a = u.loadWord a := ih (step_dmem_wf hwf hstep) hrun (hno.rest hstep)
      _ = s.loadWord a := step_loadWord hwf ha hstep hno.first

/-- Settles O50: the SW leaves its word and no other changed, the run keeps the word (`run_loadWord`), and its address stays an
admitted one, the configuration being the same. -/
theorem storeThenLoad : Obligations.StoreThenLoad := by
  refine ⟨fun s rs1 rs2 f3 imm hwf hacc => ?_, fun s t a k hwf ha => run_loadWord hwf ha⟩
  obtain ⟨haligned, -⟩ := (accessError_none_iff ..).mp hacc
  have hstored : (s.storeWord (s.dataAddress rs1 imm) (s.readReg rs2)).advancePc.loadWord (s.dataAddress rs1 imm) =
      s.readReg rs2 := loadWord_storeWord_same hwf ..
  refine ⟨_, exec_sw_admitted hacc rs2 f3, hstored, fun a ha => loadWord_storeWord_other hwf _ haligned ha, ?_⟩
  intro k u hrun hno rd base f3' imm' haddr
  have hcfg : u.cfg = s.cfg := (parametersNeverChange _ u k hrun :)
  have hacc' : u.accessError (u.dataAddress base imm') = none := by rw [haddr, accessError_congr hcfg, hacc]
  have hword : u.loadWord (u.dataAddress base imm') = s.readReg rs2 := by
    rw [haddr, run_loadWord (Memory.wf_writeWord hwf ..) haligned hrun hno, hstored]
  obtain ⟨v, hexec, hv⟩ := exec_lw_registerStep hacc' rd f3'
  exact ⟨v, hexec, hword ▸ hv.dest⟩

end Sys2Proof.Machine
end

section
/-!
The BRANCH class, control transfer (44_branch.md R150 to R154): its row of the opcode table, what BEQ leaves in each of its three cases,
when its target is misaligned, and that no instruction reads the pc into a register or the data memory.
-/

namespace Sys2Proof.Machine

/-! ## BEQ in its three cases -/

theorem branchStep_jump (s : State) (target : Word) : BranchStep s (s.jump target) target :=
  ⟨rfl, fun _ => rfl, fun _ => rfl, rfl, rfl, rfl⟩

theorem branchStep_advancePc (s : State) : BranchStep s s.advancePc (s.pc + 4#32) :=
  ⟨rfl, fun _ => rfl, fun _ => rfl, rfl, rfl, rfl⟩

section Beq

variable {s : State} {rs1 rs2 : RegIdx} {off : BitVec 12}

/-- Equal registers and an aligned target: the branch is taken. -/
theorem exec_beq_taken (heq : s.readReg rs1 = s.readReg rs2) (haligned : (s.branchTarget off).toNat % 4 = 0)
    (f3 : BitVec 3) : ∃ t, exec (.beq rs1 rs2 f3 off) s = .next t ∧ BranchStep s t (s.branchTarget off) :=
  ⟨_, by rw [exec_beq, if_pos heq, if_neg (not_not_intro haligned)], branchStep_jump s _⟩

/-- Unequal registers: the branch falls through, whatever its offset. -/
theorem exec_beq_notTaken (hne : s.readReg rs1 ≠ s.readReg rs2) (f3 : BitVec 3) (off : BitVec 12) :
    ∃ t, exec (.beq rs1 rs2 f3 off) s = .next t ∧ BranchStep s t (s.pc + 4#32) :=
  ⟨_, by rw [exec_beq, if_neg hne], branchStep_advancePc s⟩

/-- Equal registers and a misaligned target: the error is taken (R152). -/
theorem exec_beq_misaligned (heq : s.readReg rs1 = s.readReg rs2) (hmis : (s.branchTarget off).toNat % 4 ≠ 0)
    (f3 : BitVec 3) : ∃ t, exec (.beq rs1 rs2 f3 off) s = .next t ∧ ErrorStep s t .branchTargetMisaligned :=
  ⟨_, by rw [exec_beq, if_pos heq, if_pos hmis], errorStep_raise s _⟩

end Beq

/-- Settles O47: the row by its opcode, the three cases by the comparison and the target's alignment. -/
theorem beqBranchesOrFallsThrough : Obligations.BeqBranchesOrFallsThrough := by
  refine ⟨rowDecodes_opcode rfl decodeLoose_branch fun _ => rfl, fun rs1 rs2 f3 off s => ⟨rfl, ?_, ?_, ?_⟩⟩
  · exact fun heq haligned => exec_beq_taken heq haligned f3
  · exact fun hne => exec_beq_notTaken hne f3 off
  · exact fun heq hmis => exec_beq_misaligned heq hmis f3

/-! ## When the target is misaligned -/

/-- Of a branch word's offset bit 1 is `instr[8]` and bit 0 is 0; sign extension adds a multiple of 4 (R56, R152). -/
theorem branchOffset_bGroup_mod_four (w : Word) :
    (branchOffset (bGroup w)).toNat % 4 = w.toNat / 2 ^ 8 % 2 * 2 := by
  rw [branchOffset, sext13_toNat, bGroup_toNat]
  split_ifs <;> omega

/-- From an aligned pc the target of a branch word is aligned exactly when `instr[8]` is 0 (R152). -/
theorem branchTarget_aligned_iff {s : State} (hpc : s.pc.toNat % 4 = 0) (w : Word) :
    (s.branchTarget (bGroup w)).toNat % 4 = 0 ↔ w.getLsbD 8 = false := by
  have hoff := branchOffset_bGroup_mod_four w
  have hbit : w.getLsbD 8 = decide (w.toNat / 2 ^ 8 % 2 = 1) := Nat.testBit_eq_decide_div_mod_eq
  rw [State.branchTarget, BitVec.toNat_add, hbit, decide_eq_false_iff_not]
  omega

/-- Settles O48: a fetched word stands at an aligned pc, so `instr[8]` decides between BEQ's two cases of equal registers. -/
theorem takenBranchRaisesIffBit8 : Obligations.TakenBranchRaisesIffBit8 := by
  intro s w i hrun hfetch hdec hop heq
  obtain ⟨hloose, -⟩ := decode_ok_iff.mp hdec
  obtain rfl := Except.ok.inj (hloose.symm.trans (decodeLoose_branch hop))
  have htarget := branchTarget_aligned_iff (fetch_some_aligned hfetch) w
  rw [step_decoded hrun hfetch hdec]
  cases hbit : w.getLsbD 8 with
  | true =>
    have hmis : (s.branchTarget (bGroup w)).toNat % 4 ≠ 0 := by simp [htarget, hbit]
    exact exec_beq_misaligned heq hmis (funct3 w)
  | false =>
    rw [immGen_branch hop]
    exact exec_beq_taken heq (htarget.mpr hbit) (funct3 w)

/-! ## The pc is not readable -/

section Jump

variable (s : State) (p : Word)

@[simp] theorem jump_dataAddress (base : RegIdx) (imm : BitVec 12) :
    (s.jump p).dataAddress base imm = s.dataAddress base imm := rfl
@[simp] theorem jump_accessError (a : Word) : (s.jump p).accessError a = s.accessError a := rfl
@[simp] theorem jump_loadWord (a : Word) : (s.jump p).loadWord a = s.loadWord a := rfl

end Jump

/-- BEQ, the one instruction that computes with the pc, leaves registers and data memory as they are in all its cases (R150). -/
theorem exec_beq_regs_dmem (rs1 rs2 : RegIdx) (f3 : BitVec 3) (off : BitVec 12) (s : State) :
    ∃ t, exec (.beq rs1 rs2 f3 off) s = .next t ∧ t.regs = s.regs ∧ t.dmem = s.dmem := by
  refine ⟨_, exec_beq .., ?_⟩
  split_ifs <;> exact ⟨rfl, rfl⟩

/-- Settles O52: moving the pc changes no operand, address or loaded word of an instruction other than BEQ, and BEQ writes neither
registers nor memory. -/
theorem pcIsNotReadable : Obligations.PcIsNotReadable := by
  intro i s p
  change ∃ t t', exec i s = .next t ∧ exec i (s.jump p) = .next t' ∧ t'.regs = t.regs ∧ t'.dmem = t.dmem
  cases i with
  | lw rd rs1 f3 imm =>
    refine ⟨_, _, exec_lw .., exec_lw .., ?_⟩
    rw [jump_dataAddress, jump_accessError, jump_loadWord]
    cases s.accessError (s.dataAddress rs1 imm) <;> exact ⟨rfl, rfl⟩
  | sw rs1 rs2 f3 imm =>
    refine ⟨_, _, exec_sw .., exec_sw .., ?_⟩
    rw [jump_dataAddress, jump_accessError, readReg_jump]
    cases s.accessError (s.dataAddress rs1 imm) <;> exact ⟨rfl, rfl⟩
  | beq rs1 rs2 f3 off =>
    obtain ⟨t, hexec, hregs, hdmem⟩ := exec_beq_regs_dmem rs1 rs2 f3 off s
    obtain ⟨t', hexec', hregs', hdmem'⟩ := exec_beq_regs_dmem rs1 rs2 f3 off (s.jump p)
    exact ⟨t, t', hexec, hexec', hregs'.trans hregs.symm, hdmem'.trans hdmem.symm⟩
  | _ => exact ⟨_, _, rfl, rfl, rfl, rfl⟩

end Sys2Proof.Machine
end

section
/-!
Taking an error (60_exceptions.md R163 to R168): a step that halts changes status and fault latch only, the data accesses that raise,
and the codes of the causes.
-/

namespace Sys2Proof.Machine

/-! ## The steps that halt -/

/-- A RUNNING step that halts is the clean halt on a lookup miss, or on a fetched word an error taken. -/
theorem step_halting_cases {s t : State} (hrun : s.status = .running) (hstep : step s = .next t)
    (hhalt : t.status = .halted) :
    (s.fetch = none ∧ t = s.haltClean) ∨ (s.fetch ≠ none ∧ ∃ c, t = s.raise c) := by
  obtain ⟨hs, -⟩ | ⟨-, hfetch, hs⟩ | ⟨w, c, -, hfetch, -, hs⟩ | ⟨w, i, -, hfetch, -, hs⟩ := step_cases s
  · exact absurd (hrun.symm.trans hs) nofun
  · cases hs.symm.trans hstep
    exact .inl ⟨hfetch, rfl⟩
  · cases hs.symm.trans hstep
    exact .inr ⟨by simp [hfetch], c, rfl⟩
  · obtain ⟨t', hexec, hsame | hraise⟩ := exec_sameControl_or_raise i s
    all_goals cases (hs.trans hexec).symm.trans hstep
    · exact absurd (hrun.symm.trans (hsame.status.symm.trans hhalt)) nofun
    · exact .inr ⟨by simp [hfetch], hraise⟩

/-- Settles O18: a halting step is `haltClean` or `raise` (`step_halting_cases`), which write status and fault alone. -/
theorem haltingStepsChangeOnlyStatusAndFault : Obligations.HaltingStepsChangeOnlyStatusAndFault := by
  intro s t hrun hstep hhalt
  obtain ⟨hfetch, rfl⟩ | ⟨hfetch, c, rfl⟩ := step_halting_cases hrun hstep hhalt
  · exact ⟨rfl, .inl ⟨hfetch, rfl⟩⟩
  · exact ⟨rfl, .inr ⟨hfetch, c, rfl⟩⟩

/-! ## The data accesses that raise -/

theorem dataAddress_load {w : Word} (h : opcode w = 0b0000011#7) (s : State) :
    s.dataAddress (rs1Field w) (iGroup w) = s.readReg (rs1Field w) + immGen w := by
  rw [immGen_i (.inr h)]
  rfl

theorem dataAddress_store {w : Word} (h : opcode w = 0b0100011#7) (s : State) :
    s.dataAddress (rs1Field w) (sGroup w) = s.readReg (rs1Field w) + immGen w := by
  rw [immGen_store h]
  rfl

/-- A LOAD or STORE word whose access is refused takes the cause of the refusal. -/
theorem exec_refusedAccess {s : State} {w : Word} {i : Instr} {c : Cause} {strict : Bool}
    (hdec : decode strict w = .ok i) (hop : opcode w = 0b0000011#7 ∨ opcode w = 0b0100011#7)
    (hacc : s.accessError (s.readReg (rs1Field w) + immGen w) = some c) :
    ∃ t, exec i s = .next t ∧ ErrorStep s t c := by
  obtain ⟨hloose, -⟩ := decode_ok_iff.mp hdec
  obtain hload | hstore := hop
  · obtain rfl := Except.ok.inj (hloose.symm.trans (decodeLoose_load hload))
    exact exec_lw_errorStep (by rw [dataAddress_load hload, hacc]) _ _
  · obtain rfl := Except.ok.inj (hloose.symm.trans (decodeLoose_store hstore))
    exact exec_sw_errorStep (by rw [dataAddress_store hstore, hacc]) _ _

/-- DMEM_SIZE is 2^31 at most (00_scope.md R6), so an address with bit 31 set is at or above it (R164). -/
theorem dmemSize_le_of_bit31 {c : Config} (hwf : c.wf) {a : Word} (hbit : a.getLsbD 31 = true) :
    c.dmemSize ≤ a.toNat := by
  obtain ⟨-, -, -, hmax, -⟩ := hwf
  exact hmax.trans (Nat.ge_two_pow_of_testBit hbit)

/-- Settles O49: which cause the access check answers for the word's address, and that the step takes it. -/
theorem badDataAddressRaises : Obligations.BadDataAddressRaises := by
  intro s w i hrun hfetch hdec hop
  rw [step_decoded hrun hfetch hdec]
  refine ⟨fun hmis => ?_, fun haligned hout => ?_⟩
  · exact exec_refusedAccess hdec hop ((accessError_misaligned_iff ..).mpr hmis)
  · have hle : s.cfg.dmemSize ≤ (s.readReg (rs1Field w) + immGen w).toNat :=
      hout.elim id fun ⟨hwf, hbit⟩ => dmemSize_le_of_bit31 hwf hbit
    exact exec_refusedAccess hdec hop ((accessError_outOfRange_iff ..).mpr ⟨haligned, hle⟩)

/-! ## The codes of the causes -/

/-- The latch value a code stands for (R167); 6 and 7, which no latch value has, are read as NONE. -/
def latchOfCode (code : BitVec 3) : Option Cause :=
  match code with
  | 1#3 => some .unsupportedOpcode
  | 2#3 => some .unsupportedFunct
  | 3#3 => some .memMisaligned
  | 4#3 => some .memOutOfRange
  | 5#3 => some .branchTargetMisaligned
  | _ => none

theorem latchOfCode_faultCode : Function.LeftInverse latchOfCode faultCode
  | none => rfl
  | some c => by cases c <;> rfl

theorem faultCode_le_five : ∀ f, (faultCode f).toNat ≤ 5
  | none => by decide
  | some c => by cases c <;> decide

/-- Settles O55: a code gives its latch value back, so no two values share one. -/
theorem causeCodesAreDistinct : Obligations.CauseCodesAreDistinct :=
  ⟨fun _ _ h => latchOfCode_faultCode.injective h, faultCode_le_five, rfl, rfl, rfl, rfl, rfl, rfl⟩

end Sys2Proof.Machine
end

section
/-!
Reset (70_reset_and_hazards.md R190, R191): the data memory it leaves, and the values of the whole state.
-/

namespace Sys2Proof.Machine

/-- Word w after reset is `DMEM_INIT(w)`: the word stored there, or past the list's end the 0 of the empty memory. -/
theorem readWord_initialMemory (c : Config) (w : Nat) :
    (initialMemory c).readWord c.byteOrder (4 * w) = c.dmemInit.getD w 0#32 := by
  rw [initialMemory]
  by_cases hw : w < c.dmemInit.length
  · rw [← Nat.zero_add (4 * w), Memory.readWord_writeWords Memory.wf_nil _ _ _ _ hw]
    exact (List.getD_eq_getElem _ _ hw).symm
  · rw [Memory.readWord_writeWords_other Memory.wf_nil _ _ _ _ (by omega), Memory.readWord_nil,
      List.getD_eq_default _ _ (by omega)]

/-- A clock edge with `rst` = 1 is reset under the same configuration, whatever the state (R191). -/
theorem clockEdge_reset (s : State) : clockEdge true s = .next (State.resetWith s.cfg) := rfl

/-- Settles O22: the data memory by `readWord_initialMemory`, the registers by `readReg_resetWith`. -/
theorem resetValues : Obligations.ResetValues :=
  ⟨fun c => ⟨rfl, rfl, rfl, readReg_resetWith c, readWord_initialMemory c⟩, clockEdge_reset⟩

end Sys2Proof.Machine
end

section
/-!
The program image format (70_reset_and_hazards.md R204): a word's line reads back as the word, and an image is read line by line.
-/

namespace Sys2Proof.Machine

/-! ## One line -/

/-- The characters of the low n bits of a word, bit n - 1 first: what is left of its line after 32 - n characters. -/
def lowBitChars (w : Word) : Nat → List Char
  | 0 => []
  | n + 1 => (if w.getLsbD n then '1' else '0') :: lowBitChars w n

theorem imageLine_eq_lowBitChars (w : Word) : imageLine w = lowBitChars w 32 := rfl

theorem length_lowBitChars (w : Word) : ∀ n, (lowBitChars w n).length = n
  | 0 => rfl
  | n + 1 => congrArg (· + 1) (length_lowBitChars w n)

theorem parseBit_bitChar (b : Bool) : parseBit (if b then '1' else '0') = some b := by cases b <;> rfl

theorem parseBit_eq_none {c : Char} (h0 : c ≠ '0') (h1 : c ≠ '1') : parseBit c = none := by
  rw [parseBit, if_neg h0, if_neg h1]

theorem parseBits_cons_bitChar (acc : Word) (b : Bool) (cs : List Char) :
    parseBits acc ((if b then '1' else '0') :: cs) = parseBits (acc <<< 1 ||| (if b then 1 else 0)) cs := by
  rw [parseBits, parseBit_bitChar]

/-- Reading bit n after the bits above it. -/
theorem shiftIn_bit (w : Word) (n : Nat) :
    (w >>> (n + 1)) <<< 1 ||| (if w.getLsbD n then 1 else 0) = w >>> n := by
  ext i hi
  cases i with
  | zero => cases hb : w.getLsbD n <;> simp [hb]
  | succ i => cases w.getLsbD n <;> simp [Nat.add_comm, Nat.add_left_comm]

/-- With the bits above the low n read, reading the low n completes the word. -/
theorem parseBits_lowBitChars (w : Word) (n : Nat) : parseBits (w >>> n) (lowBitChars w n) = some w := by
  induction n with
  | zero => rw [lowBitChars, parseBits, BitVec.ushiftRight_zero]
  | succ n ih => rw [lowBitChars, parseBits_cons_bitChar, shiftIn_bit, ih]

/-- A character other than 0 and 1 anywhere makes the bits unreadable. -/
theorem parseBits_eq_none {cs : List Char} (acc : Word) (h : ∃ c ∈ cs, c ≠ '0' ∧ c ≠ '1') : parseBits acc cs = none := by
  induction cs generalizing acc with
  | nil => simp at h
  | cons d cs ih =>
    rw [parseBits]
    cases hd : parseBit d with
    | none => rfl
    | some b =>
      obtain ⟨c, hmem, h0, h1⟩ := h
      obtain rfl | hmem := List.mem_cons.mp hmem
      · simp [parseBit_eq_none h0 h1] at hd
      · exact ih _ ⟨c, hmem, h0, h1⟩

theorem parseLine_imageLine (w : Word) : parseLine (imageLine w) = some w := by
  have hnone : w >>> 32 = 0 := BitVec.ushiftRight_eq_zero le_rfl
  rw [imageLine_eq_lowBitChars, parseLine, if_pos (length_lowBitChars w 32), ← hnone, parseBits_lowBitChars]

theorem parseLine_malformed {line : List Char} (h : line.length ≠ 32 ∨ ∃ c ∈ line, c ≠ '0' ∧ c ≠ '1') :
    parseLine line = none := by
  rw [parseLine]
  split_ifs with hlen
  · exact parseBits_eq_none 0 (h.resolve_left (· hlen))
  · rfl

/-- The line of a word begins with a 0 or a 1, so it is not blank. -/
theorem blankLine_imageLine (w : Word) : blankLine (imageLine w) = false := by
  rw [imageLine_eq_lowBitChars, lowBitChars, blankLine, List.all_cons]
  cases w.getLsbD 31 <;> rfl

/-! ## The image -/

theorem parseImage_blank {line : List Char} (h : blankLine line = true) (lines : List (List Char)) :
    parseImage (line :: lines) = parseImage lines := by
  rw [parseImage, if_pos h]

/-- A line that is not blank gives the first word; unreadable, it leaves no image. -/
theorem parseImage_notBlank {line : List Char} (h : blankLine line = false) (lines : List (List Char)) :
    parseImage (line :: lines) = Option.map₂ List.cons (parseLine line) (parseImage lines) := by
  rw [parseImage, if_neg (Bool.eq_false_iff.mp h)]
  cases parseLine line <;> cases parseImage lines <;> rfl

/-- An image cut in two is read part by part: its words in file order, and none when either part is malformed. -/
theorem parseImage_append (before after : List (List Char)) :
    parseImage (before ++ after) = Option.map₂ (· ++ ·) (parseImage before) (parseImage after) := by
  induction before with
  | nil => cases h : parseImage after <;> simp [parseImage, h]
  | cons line lines ih =>
    cases hb : blankLine line with
    | true => rw [List.cons_append, parseImage_blank hb, parseImage_blank hb, ih]
    | false =>
      rw [List.cons_append, parseImage_notBlank hb, parseImage_notBlank hb, ih]
      symm
      exact Option.map₂_assoc fun _ _ _ => List.cons_append

theorem parseImage_imageLines (ws : List Word) : parseImage (ws.map imageLine) = some ws := by
  induction ws with
  | nil => rfl
  | cons w ws ih =>
    rw [List.map_cons, parseImage_notBlank (blankLine_imageLine w), parseLine_imageLine, ih, Option.map₂_some_some]

/-- Settles O56: the image read part by part (`parseImage_append`), a word's line giving the word back. -/
theorem programImageReadsBack : Obligations.ProgramImageReadsBack := by
  refine ⟨parseImage_imageLines, fun before after line hblank => ?_, fun before after line hblank hbad => ?_⟩
  · rw [parseImage_append, parseImage_blank hblank, ← parseImage_append]
  · rw [parseImage_append, parseImage_notBlank hblank, parseLine_malformed hbad, Option.map₂_none_left,
      Option.map₂_none_right]

end Sys2Proof.Machine
end
